-- ==== Sys2Proof/Word.lean ====
section
/-! DEFINITION. The word types of CORE: widths as spec/00_scope.md rule R7 fixes them. -/

namespace Sys2Proof

/-- A V register, a timer, a memory byte, an immediate `nn`: REG_W = TIMER_W = 8 bits (R7). -/
abbrev Byte := BitVec 8

/-- `pc`, `I`, a call stack entry, an instruction word: PC_W = I_W = STACK_W = 16 bits (R7, R80). -/
abbrev Word := BitVec 16

/-- The 12-bit address field `nnn` of an instruction word (R12). -/
abbrev Addr12 := BitVec 12

/-- The number of a general register, V0 to VF: every 4-bit index names one (10_state.md R20). -/
abbrev Reg := Fin 16

end Sys2Proof
end

