-- ==== Sys2Proof/WellFormed.lean ====
section
/-! DEFINITION. Which instructions can stand in a program. Register numbers and immediates are bounded by their types;
the sprite height of Dxyn is the one operand that needs a check (spec/30_encoding.md rule R83: "an unsigned count 0 to
15"). -/

namespace Sys2Proof

/-- Every operand is a value its field can hold (R81, R83). -/
def Instr.wf : Instr → Bool
  | .drw _ _ n => decide (n ≤ 15)
  | .cls | .ret | .nop => true
  | .jp _ | .call _ | .ldI _ | .jpOff _ => true
  | .seImm _ _ | .sneImm _ _ | .ldImm _ _ | .addImm _ _ | .rnd _ _ => true
  | .seReg _ _ | .sneReg _ _ | .ldReg _ _ | .orReg _ _ | .andReg _ _ | .xorReg _ _ => true
  | .addReg _ _ | .sub _ _ | .shr _ _ | .subn _ _ | .shl _ _ => true
  | .skp _ | .sknp _ | .ldFromDt _ | .keyWait _ | .ldDt _ | .ldSt _ => true
  | .addI _ | .ldF _ | .bcd _ | .store _ | .load _ => true

end Sys2Proof
end

