-- ==== Sys2Proof/Decode.lean ====
section
/-! DEFINITION. The decoder (spec/30_encoding.md rules R80 to R91), the encoder, and the opcode map of R85 as data. The
numeric patterns are the spec's R85, which takes them from the standard CHIP-8 table (D1, D2; log 14). -/

namespace Sys2Proof

/-! ### Fields (R12, R81) -/

/-- `op = w[15:12]`, the opcode family. -/
def opField (w : Word) : BitVec 4 := w.extractLsb' 12 4

/-- `w[11:8]` and `w[7:4]` as register numbers. -/
def regOfBits (f : BitVec 4) : Reg := ⟨f.toNat, f.isLt⟩

/-- `x = w[11:8]`. -/
def xField (w : Word) : Reg := regOfBits (w.extractLsb' 8 4)

/-- `y = w[7:4]`. -/
def yField (w : Word) : Reg := regOfBits (w.extractLsb' 4 4)

/-- `n = w[3:0]`. -/
def nField (w : Word) : BitVec 4 := w.extractLsb' 0 4

/-- `nn = w[7:0]`. -/
def nnField (w : Word) : Byte := w.extractLsb' 0 8

/-- `nnn = w[11:0]`. -/
def nnnField (w : Word) : Addr12 := w.extractLsb' 0 12

/-! ### The decoder (R84) -/

/-- Family 8 routes by the low nibble (R84, D2). -/
def decode8 (x y : Reg) (n : BitVec 4) : Instr :=
  match n with
  | 0x0 => .ldReg x y
  | 0x1 => .orReg x y
  | 0x2 => .andReg x y
  | 0x3 => .xorReg x y
  | 0x4 => .addReg x y
  | 0x5 => .sub x y
  | 0x6 => .shr x y
  | 0x7 => .subn x y
  | 0xE => .shl x y
  | _ => .nop

/-- Family E routes by the low byte (R84, D2). -/
def decodeE (x : Reg) (nn : Byte) : Instr :=
  match nn with
  | 0x9E => .skp x
  | 0xA1 => .sknp x
  | _ => .nop

/-- Family F routes by the low byte (R84, D2). -/
def decodeF (x : Reg) (nn : Byte) : Instr :=
  match nn with
  | 0x07 => .ldFromDt x
  | 0x0A => .keyWait x
  | 0x15 => .ldDt x
  | 0x18 => .ldSt x
  | 0x1E => .addI x
  | 0x29 => .ldF x
  | 0x33 => .bcd x
  | 0x55 => .store x
  | 0x65 => .load x
  | _ => .nop

/-- Every word but the two literals is routed by its top nibble (R84). Family 0 has no other operation (R89, D4); families 5 and 9
ignore the low nibble (R88, D3). -/
def decodeFamily (w : Word) : Instr :=
  match opField w with
  | 0x0 => .nop
  | 0x1 => .jp (nnnField w)
  | 0x2 => .call (nnnField w)
  | 0x3 => .seImm (xField w) (nnField w)
  | 0x4 => .sneImm (xField w) (nnField w)
  | 0x5 => .seReg (xField w) (yField w)
  | 0x6 => .ldImm (xField w) (nnField w)
  | 0x7 => .addImm (xField w) (nnField w)
  | 0x8 => decode8 (xField w) (yField w) (nField w)
  | 0x9 => .sneReg (xField w) (yField w)
  | 0xA => .ldI (nnnField w)
  | 0xB => .jpOff (nnnField w)
  | 0xC => .rnd (xField w) (nnField w)
  | 0xD => .drw (xField w) (yField w) (nField w).toNat
  | 0xE => decodeE (xField w) (nnField w)
  | _ => decodeF (xField w) (nnField w) -- the last family, 0xF

/-- The total, pure decoder of one word: the two literals are checked first (R84, R86, R90). -/
def decode (w : Word) : Instr :=
  if w = 0x00E0 then .cls
  else if w = 0x00EE then .ret
  else decodeFamily w

/-- Why a sequence of bytes holds no instruction. -/
inductive DecodeError where
  /-- Fewer than the two bytes of an instruction (R80). -/
  | truncated
  deriving DecidableEq, Repr

/-- The word of two consecutive bytes: the byte at the lower address is `w[15:8]` (20_memory.md R53). -/
def wordOfBytes (hi lo : Byte) : Word := hi ++ lo

/-- The instruction at the head of a byte sequence and the bytes after it. Every word decodes (R86), so only a missing
byte is rejected. -/
def decodeBytes : List Byte → Except DecodeError (Instr × List Byte)
  | hi :: lo :: rest => .ok (decode (wordOfBytes hi lo), rest)
  | _ => .error .truncated

/-- The two bytes of a word in the order they are stored (R80, R53). -/
def bytesOfWord (w : Word) : List Byte := [w.extractLsb' 8 8, w.extractLsb' 0 8]

/-- The instruction the decoder reads from the word that spec/opcode_table.json numbers `w` with `nbits` bits: CORE has one
instruction length, so the bits above `nbits` up to 16 are zero and more than 16 bits are no instruction (log 24). -/
def decodeTableWord (nbits w : Nat) : Option Instr :=
  if nbits ≤ 16 then
    match decodeBytes (bytesOfWord (BitVec.ofNat 16 (w % 2 ^ nbits))) with
    | .ok (i, _) => some i
    | .error _ => none
  else none

/-! ### The encoder (R81, R82, R85) -/

/-- A register number as a 4-bit field. -/
def regBits (r : Reg) : BitVec 4 := BitVec.ofNat 4 r.val

/-- Format NNN: `{op, nnn}` (R82). -/
def packNNN (op : BitVec 4) (nnn : Addr12) : Word := op ++ nnn

/-- Formats XNN and XSUB: `{op, x, nn}` (R82). -/
def packXNN (op : BitVec 4) (x : Reg) (nn : Byte) : Word := op ++ regBits x ++ nn

/-- Format XYN: `{op, x, y, n}` (R82). -/
def packXYN (op : BitVec 4) (x y : Reg) (n : BitVec 4) : Word := op ++ regBits x ++ regBits y ++ n

/-- The word of an instruction (R85). DESIGN CHOICE (safe, log 14): where several words stand for one instruction the encoder
gives the canonical one, `n = 0` for 5xyn and 9xyn (R142, R143) and 0x0000 for NOP (R93). -/
def encode : Instr → Word
  | .cls => 0x00E0
  | .ret => 0x00EE
  | .jp nnn => packNNN 0x1 nnn
  | .call nnn => packNNN 0x2 nnn
  | .seImm x nn => packXNN 0x3 x nn
  | .sneImm x nn => packXNN 0x4 x nn
  | .seReg x y => packXYN 0x5 x y 0x0
  | .ldImm x nn => packXNN 0x6 x nn
  | .addImm x nn => packXNN 0x7 x nn
  | .ldReg x y => packXYN 0x8 x y 0x0
  | .orReg x y => packXYN 0x8 x y 0x1
  | .andReg x y => packXYN 0x8 x y 0x2
  | .xorReg x y => packXYN 0x8 x y 0x3
  | .addReg x y => packXYN 0x8 x y 0x4
  | .sub x y => packXYN 0x8 x y 0x5
  | .shr x y => packXYN 0x8 x y 0x6
  | .subn x y => packXYN 0x8 x y 0x7
  | .shl x y => packXYN 0x8 x y 0xE
  | .sneReg x y => packXYN 0x9 x y 0x0
  | .ldI nnn => packNNN 0xA nnn
  | .jpOff nnn => packNNN 0xB nnn
  | .rnd x nn => packXNN 0xC x nn
  | .drw x y n => packXYN 0xD x y (BitVec.ofNat 4 n)
  | .skp x => packXNN 0xE x 0x9E
  | .sknp x => packXNN 0xE x 0xA1
  | .ldFromDt x => packXNN 0xF x 0x07
  | .keyWait x => packXNN 0xF x 0x0A
  | .ldDt x => packXNN 0xF x 0x15
  | .ldSt x => packXNN 0xF x 0x18
  | .addI x => packXNN 0xF x 0x1E
  | .ldF x => packXNN 0xF x 0x29
  | .bcd x => packXNN 0xF x 0x33
  | .store x => packXNN 0xF x 0x55
  | .load x => packXNN 0xF x 0x65
  | .nop => 0x0000

/-! ### The opcode map as data (R85) -/

/-- One row of the map: a word `w` selects it when `w &&& mask = pattern`. -/
structure OpcodeRow where
  mask : Word
  pattern : Word
  mnemonic : String
  deriving DecidableEq, Repr

/-- A word selects a row (R85). -/
def OpcodeRow.selects (r : OpcodeRow) (w : Word) : Bool := w &&& r.mask == r.pattern

/-- The 19 rows told apart by literals, the top nibble and family 8's low nibble. -/
def opcodeMapLow : List OpcodeRow :=
  [⟨0xFFFF, 0x00E0, "CLS"⟩, ⟨0xFFFF, 0x00EE, "RET"⟩, ⟨0xF000, 0x1000, "JP_nnn"⟩, ⟨0xF000, 0x2000, "CALL_nnn"⟩,
   ⟨0xF000, 0x3000, "SE_Vx__nn"⟩, ⟨0xF000, 0x4000, "SNE_Vx__nn"⟩, ⟨0xF000, 0x5000, "SE_Vx__Vy"⟩,
   ⟨0xF000, 0x6000, "LD_Vx__nn"⟩, ⟨0xF000, 0x7000, "ADD_Vx__nn"⟩, ⟨0xF00F, 0x8000, "LD_Vx__Vy"⟩,
   ⟨0xF00F, 0x8001, "OR_Vx__Vy"⟩, ⟨0xF00F, 0x8002, "AND_Vx__Vy"⟩, ⟨0xF00F, 0x8003, "XOR_Vx__Vy"⟩,
   ⟨0xF00F, 0x8004, "ADD_Vx__Vy"⟩, ⟨0xF00F, 0x8005, "SUB_Vx__Vy"⟩, ⟨0xF00F, 0x8006, "SHR_Vx____Vy"⟩,
   ⟨0xF00F, 0x8007, "SUBN_Vx__Vy"⟩, ⟨0xF00F, 0x800E, "SHL_Vx____Vy"⟩, ⟨0xF000, 0x9000, "SNE_Vx__Vy"⟩]

/-- The 15 rows of families A to F. -/
def opcodeMapHigh : List OpcodeRow :=
  [⟨0xF000, 0xA000, "LD_I__nnn"⟩, ⟨0xF000, 0xB000, "JP_V0__nnn"⟩, ⟨0xF000, 0xC000, "RND_Vx__nn"⟩,
   ⟨0xF000, 0xD000, "DRW_Vx__Vy__n"⟩, ⟨0xF0FF, 0xE09E, "SKP_Vx"⟩, ⟨0xF0FF, 0xE0A1, "SKNP_Vx"⟩,
   ⟨0xF0FF, 0xF007, "LD_Vx__DT"⟩, ⟨0xF0FF, 0xF00A, "LD_Vx__K"⟩, ⟨0xF0FF, 0xF015, "LD_DT__Vx"⟩,
   ⟨0xF0FF, 0xF018, "LD_ST__Vx"⟩, ⟨0xF0FF, 0xF01E, "ADD_I__Vx"⟩, ⟨0xF0FF, 0xF029, "LD_F__Vx"⟩,
   ⟨0xF0FF, 0xF033, "LD_B__Vx"⟩, ⟨0xF0FF, 0xF055, "LD__I___Vx"⟩, ⟨0xF0FF, 0xF065, "LD_Vx___I"⟩]

/-- The 34 rows of R85; NOP is the fallback when none is selected. -/
def opcodeMap : List OpcodeRow := opcodeMapLow ++ opcodeMapHigh

end Sys2Proof
end

