-- ==== Sys2Proof/Config.lean ====
section
/-! DEFINITION. The parameters of CORE (spec/00_scope.md rules R8 to R10), fixed when an instance is created, and the
free random byte. The parameters are plain data: an instance carries the ones it was created with (`State.config`), so
that a statement about every state is a statement about every choice of them. -/

namespace Sys2Proof

/-- SHIFT_MODE: which register 8xy6 and 8xyE shift (R9). -/
inductive ShiftMode where
  | inPlace
  | copyVy
  deriving DecidableEq, Repr, Inhabited

/-- JUMP_MODE: which register Bnnn adds (R9). -/
inductive JumpMode where
  | v0
  | vx
  deriving DecidableEq, Repr, Inhabited

/-- MEM_I_MODE: whether Fx55 and Fx65 leave I alone or add x + 1 to it (R9). -/
inductive MemIMode where
  | unchanged
  | increment
  deriving DecidableEq, Repr, Inhabited

/-- The parameters an instance is created with (R8, R9, R10; R230). -/
structure Config where
  /-- FONT_BASE, a natural number: the address of the first font byte (R8). -/
  fontBase : Nat
  shiftMode : ShiftMode
  jumpMode : JumpMode
  memIMode : MemIMode
  /-- STACK_LIMIT: `none` is unbounded (R10). -/
  stackLimit : Option Nat
  deriving DecidableEq, Repr, Inhabited

/-- The constraint `FONT_BASE + 80 <= 0x200` of R8 and "a positive integer" of R10. -/
abbrev Config.legal (c : Config) : Prop :=
  c.fontBase + 80 ≤ 0x200 ∧ c.stackLimit ≠ some 0

/-- The defaults of R9 and R10. DESIGN CHOICE (unsafe, log 2): FONT_BASE has no default in the spec; this is the value
of the spec's examples (R8). The default of JUMP_MODE and of STACK_LIMIT is the spec's decision (D14, D8; log 3). -/
def Config.default : Config where
  fontBase := 0x050
  shiftMode := .inPlace
  jumpMode := .v0
  memIMode := .unchanged
  stackLimit := none

/-- The random byte of the k-th Cxnn executed: "a free input of the step, any value 0 to 255" under no law (R10, R162).
It has no body, so a claim that names it holds whatever the byte is (DESIGN CHOICE, log 6). -/
opaque Config.freeRnd : Nat → Byte

end Sys2Proof
end

