-- ==== Sys2Proof/Machine/Font.lean ====
section
/-! DEFINITION. The font table, 16 glyphs of 5 bytes (spec/10_state.md rule R32). The bytes are the spec's table, which it takes
from the standard CHIP-8 font by decision D6 (log 5). -/

namespace Sys2Proof.Machine

/-- Digits 0 to 3. -/
def fontDigits0to3 : List Byte :=
  [0xF0, 0x90, 0x90, 0x90, 0xF0] ++ [0x20, 0x60, 0x20, 0x20, 0x70] ++
  [0xF0, 0x10, 0xF0, 0x80, 0xF0] ++ [0xF0, 0x10, 0xF0, 0x10, 0xF0]

/-- Digits 4 to 7. -/
def fontDigits4to7 : List Byte :=
  [0x90, 0x90, 0xF0, 0x10, 0x10] ++ [0xF0, 0x80, 0xF0, 0x10, 0xF0] ++
  [0xF0, 0x80, 0xF0, 0x90, 0xF0] ++ [0xF0, 0x10, 0x20, 0x40, 0x40]

/-- Digits 8 to B. -/
def fontDigits8toB : List Byte :=
  [0xF0, 0x90, 0xF0, 0x90, 0xF0] ++ [0xF0, 0x90, 0xF0, 0x10, 0xF0] ++
  [0xF0, 0x90, 0xF0, 0x90, 0x90] ++ [0xE0, 0x90, 0xE0, 0x90, 0xE0]

/-- Digits C to F. -/
def fontDigitsCtoF : List Byte :=
  [0xF0, 0x80, 0x80, 0x80, 0xF0] ++ [0xE0, 0x90, 0x90, 0x90, 0xE0] ++
  [0xF0, 0x80, 0xF0, 0x80, 0xF0] ++ [0xF0, 0x80, 0xF0, 0x80, 0x80]

/-- The 80 bytes, glyph d at 5*d to 5*d + 4, top row first (R32). -/
def fontTable : List Byte := fontDigits0to3 ++ fontDigits4to7 ++ fontDigits8toB ++ fontDigitsCtoF

end Sys2Proof.Machine
end

