-- ==== Sys2Proof/Machine/Memory.lean ====
section
/-! DEFINITION. Memory as plain data (spec/20_memory.md): 4096 bytes, addresses 0 to 4095 (R50), held as the list of the
cells that differ from the reset contents (R39), addresses rising. `fb` is FONT_BASE throughout. -/

namespace Sys2Proof.Machine

/-- A list of (address, byte) cells in canonical form (`Memory.wf`). -/
abbrev Memory := List Host.Cell

/-- MEM_SIZE (R7). -/
abbrev memSize : Nat := 4096

/-- What an unlisted address reads as: the reset contents, the font at FONT_BASE and zero elsewhere (10_state.md R39;
70_reset_and_hazards.md R230). -/
def Memory.unlisted (fb a : Nat) : Byte :=
  if fb ≤ a then fontTable.getD (a - fb) 0 else 0

/-- The byte at address `a` (R13, R56). Every access of an instruction stands behind the range check of R52, so no address
above 4095 is ever asked for (log 10). -/
def Memory.read (fb : Nat) : Memory → Nat → Byte
  | [], a => Memory.unlisted fb a
  | (c, d) :: rest, a => if a = c then d else Memory.read fb rest a

/-- Store byte `b` at address `a` (R13), keeping the canonical form. -/
def Memory.write (fb : Nat) : Memory → Nat → Byte → Memory
  | [], a, b => if b = Memory.unlisted fb a then [] else [(a, b)]
  | (c, d) :: rest, a, b =>
    if a < c then
      if b = Memory.unlisted fb a then (c, d) :: rest else (a, b) :: (c, d) :: rest
    else if a = c then
      if b = Memory.unlisted fb a then rest else (a, b) :: rest
    else (c, d) :: Memory.write fb rest a b

/-- Bytes stored at ascending addresses from `a` (R54). -/
def Memory.writeList (fb : Nat) : Memory → Nat → List Byte → Memory
  | m, _, [] => m
  | m, a, b :: bs => Memory.writeList fb (Memory.write fb m a b) (a + 1) bs

/-- The canonical form from address `lo` on: addresses rising and below 4096, no cell equal to the reset contents. -/
def Memory.wfFrom (fb : Nat) : Nat → Memory → Bool
  | _, [] => true
  | lo, (a, b) :: rest =>
    decide (lo ≤ a) && decide (a < memSize) && decide (b ≠ Memory.unlisted fb a) && Memory.wfFrom fb (a + 1) rest

/-- The canonical form. -/
def Memory.wf (fb : Nat) (m : Memory) : Bool := Memory.wfFrom fb 0 m

end Sys2Proof.Machine
end

