-- ==== Sys2Proof/Machine/State.lean ====
section
/-! DEFINITION. The state of CORE (spec/10_state.md), the reasons a step can stop (spec/60_exceptions.md rule R200), and reset
(spec/70_reset_and_hazards.md rule R230). -/

namespace Sys2Proof.Machine

/-- The faults of R200, each with the information a diagnostic carries. All four are the spec's own (safe). -/
inductive Fault where
  /-- Raised by RET on an empty call stack; `pc` is the address of the RET (R201). Safe. -/
  | stackUnderflow (pc : Word)
  /-- Raised by fetch, DRW, BCD, STORE and LOAD; `pc` is the address of the instruction and `addr` the first address above 4095
  (R202). Safe. -/
  | memRange (pc : Word) (addr : Nat)
  /-- Raised by SKP, SKNP and KEYWAIT; `key` is the value of V[x] (R203, D10). Safe. -/
  | keyRange (pc : Word) (key : Byte)
  /-- Raised by CALL when STACK_LIMIT entries stand on the stack (R204, D8). Safe. -/
  | stackOverflow (pc : Word)
  deriving DecidableEq, Repr

/-- The reasons a step can be refused. -/
inductive Refusal where
  /-- An arm of `exec` whose instruction has no meaning yet. No arm raises it in this model. Safe. -/
  | notModelled (mnemonic : String)
  deriving DecidableEq, Repr

/-- Run status (10_state.md R33). -/
inductive RunStatus where
  | running
  | faulted (reason : Fault)
  deriving DecidableEq, Repr, Inhabited

/-- The display buffer: 32 rows (top first) of 64 cells (left first), `true` is on (R29). -/
abbrev Display := Vector (Vector Bool 64) 32

/-- All cells off. -/
def Display.clear : Display := Vector.replicate 32 (Vector.replicate 64 false)

/-- All state of CORE (10_state.md), the parameters the instance was created with, and three fields of the model's own. -/
structure State where
  /-- The parameters of reset (R35): no step writes them. -/
  config : Config
  /-- V[0] to V[15]; V[15] is VF (R20, R21). -/
  v : Vector Byte 16
  /-- I, the address register (R25). -/
  iReg : Word
  /-- The program counter (R23). -/
  pc : Word
  /-- DT, the delay timer (R26). -/
  dt : Byte
  /-- ST, the sound timer (R26). -/
  st : Byte
  /-- The call stack, top first (R28). -/
  stack : List Word
  /-- Mem (R31). -/
  mem : Memory
  /-- D (R29). -/
  display : Display
  /-- K[0] to K[15], `true` is down (R30). -/
  keys : Vector Bool 16
  /-- Run status (R33). -/
  status : RunStatus
  /-- The redraw output of the last step (40_step_cycle.md R116). MODEL's own: see log 7. -/
  redraw : Bool
  /-- The sound output of the last step (40_step_cycle.md R118). MODEL's own: see log 7. -/
  sound : Bool
  /-- The program load port is open: no load has succeeded and no step was made (20_memory.md R60). MODEL's own: log 17. -/
  loadOpen : Bool
  /-- How many random bytes were drawn (43_arithmetic_logic.md R162). MODEL's own: log 6. -/
  rndIndex : Nat
  deriving DecidableEq, Repr, Inhabited

/-- Reset: the creation of an instance with its parameters (R230, R39). V, I, DT, ST, the stack and the keys are zero by the
spec's decision D7 (log 4). -/
def State.resetWith (c : Config) : State where
  config := c
  v := Vector.replicate 16 0
  iReg := 0
  pc := 0x200
  dt := 0
  st := 0
  stack := []
  mem := []
  display := Display.clear
  keys := Vector.replicate 16 false
  status := .running
  redraw := false
  sound := false
  loadOpen := true
  rndIndex := 0

/-- The machine right after reset, with the default parameters (log 2, log 3). -/
def State.reset : State := State.resetWith Config.default

end Sys2Proof.Machine
end

