-- ==== Sys2Proof/Machine/Ops.lean ====
section
/-! DEFINITION. The named operations over registers, memory, stack, keys and display, the raising of a fault, and the parts of a
step around the execute phase (spec/00_scope.md rule R13; spec/40_step_cycle.md). -/

namespace Sys2Proof.Machine

/-- How an execute phase or a step ends. -/
abbrev StepResult := Host.Outcome State Fault Refusal

/-! ### Registers (R13, R20, R23 to R26) -/

/-- VF is `V[15]` (R13). -/
def VF : Reg := 15

/-- `V[r]`. -/
def State.reg (s : State) (r : Reg) : Byte := s.v[r.val]

/-- `V[r] <- b`. -/
def State.setReg (s : State) (r : Reg) (b : Byte) : State := { s with v := s.v.set r.val b }

/-- `pc <- w`: the register is 16 bits wide, so every write is reduced mod 65536 (R24). -/
def State.setPc (s : State) (w : Word) : State := { s with pc := w }

/-- `I <- w` (R25). -/
def State.setI (s : State) (w : Word) : State := { s with iReg := w }

/-- `DT <- b` (R26). -/
def State.setDt (s : State) (b : Byte) : State := { s with dt := b }

/-- `ST <- b` (R26). -/
def State.setSt (s : State) (b : Byte) : State := { s with st := b }

/-! ### Faults: the one shared operation (R200, R205, R209) -/

/-- `raise Fault(reason)`: the step ends, the machine is `Faulted(reason)`, and nothing else of the step is visible (R13, R205).
CORE has no trap entry and no return from a fault (R209, R210). -/
def raiseFault (r : Fault) : StepResult := .fault r

/-- The address of the instruction being executed: `pc` holds it plus 2 during the execute phase (R23, R113). The diagnostic of
a fault carries it (R200). -/
def State.instrAddr (s : State) : Word := s.pc - 2

/-! ### Memory (20_memory.md) -/

/-- `MemRead(a, 1)`. -/
def State.byte (s : State) (a : Nat) : Byte := Memory.read s.config.fontBase s.mem a

/-- `MemWrite(a, 1, b)`, for the bytes of a list at ascending addresses (R54). -/
def State.storeBytes (s : State) (a : Nat) (bs : List Byte) : State :=
  { s with mem := Memory.writeList s.config.fontBase s.mem a bs }

/-- `len` bytes from `base` all lie in memory; no byte, no check (R52, D9). -/
def inRange (base len : Nat) : Bool := decide (len = 0) || decide (base + len ≤ memSize)

/-- The first address above 4095 of an access that starts at `base` (R200). -/
def firstOutside (base : Nat) : Nat := max base memSize

/-- The range check of R52, made before any effect. -/
def State.withRange (s : State) (base len : Nat) (k : StepResult) : StepResult :=
  if inRange base len then k else raiseFault (.memRange s.instrAddr (firstOutside base))

/-- `V[k] <- MemRead(base + k, 1)` (R195); `k` is below 16 in every block transfer. -/
def State.loadRegAt (base : Nat) (s : State) (k : Nat) : State :=
  { s with v := s.v.setIfInBounds k (s.byte (base + k)) }

/-- The loads of a block transfer, for the `k` below `count` in ascending order (R195). -/
def State.loadRegs (s : State) (base count : Nat) : State := (List.range count).foldl (State.loadRegAt base) s

/-! ### The call stack (R28) -/

/-- STACK_LIMIT is set and already reached (R131). -/
def State.stackFull (s : State) : Bool := s.config.stackLimit == some s.stack.length

/-- `push(w)`. -/
def State.push (s : State) (w : Word) : State := { s with stack := w :: s.stack }

/-! ### Keys (R30) -/

/-- `K[k]`. -/
def State.key (s : State) (k : Fin 16) : Bool := s.keys[k.val]

/-! ### The free random byte (R10, R162) -/

/-- `rnd`, the byte this step draws. -/
def State.rndByte (s : State) : Byte := Config.freeRnd s.rndIndex

/-- Only a step that executes Cxnn consumes `rnd` (R162): the next draw is another byte. -/
def State.consumeRnd (s : State) : State := { s with rndIndex := s.rndIndex + 1 }

/-! ### Around the execute phase (R110) -/

/-- Both bytes of the fetch lie in memory: `pc + 1 <= 4095` (R112). -/
def State.canFetch (s : State) : Bool := decide (s.pc.toNat + 1 ≤ 4095)

/-- The fault of a fetch out of range (R112, R202): `pc` is not advanced yet. -/
def State.fetchFault (s : State) : Fault := .memRange s.pc (firstOutside s.pc.toNat)

/-- `w = {Mem[pc], Mem[pc + 1]}` (R53, R112). -/
def State.fetchWord (s : State) : Word := wordOfBytes (s.byte s.pc.toNat) (s.byte (s.pc.toNat + 1))

/-- The state the execute phase sees: `redraw <- 0` and `pc <- pc + 2` (R110, R113). The first step closes the load port
(R60, R233). -/
def State.beginExecute (s : State) : State := { s with pc := s.pc + 2, redraw := false, loadOpen := false }

/-- One timer's tick: "never decrement below zero" (R212). -/
def tickTimer (t : Byte) : Byte := if t = 0 then 0 else t - 1

/-- The tick of both timers and the sound output, sampled after it (R117, R118, D18). -/
def State.endStep (s : State) : State :=
  { s with dt := tickTimer s.dt, st := tickTimer s.st, sound := decide (tickTimer s.st ≠ 0) }

/-- The end of a step: a fault ends it without a tick and without outputs (R205). -/
def finishStep : StepResult → StepResult
  | .next s => .next s.endStep
  | .fault r => .fault r
  | .refused r => .refused r

end Sys2Proof.Machine
end

