-- ==== Sys2Proof/Machine/Flags.lean ====
section
/-! DEFINITION. The values of VF, the only flag (spec/10_state.md rule R38). A flag is 0 or 1 as a byte (R21). -/

namespace Sys2Proof.Machine

/-- A condition as a flag value (R21). -/
def flagByte (b : Bool) : Byte := if b then 1 else 0

/-- Carry of the two-register add: the mathematical sum exceeds 255 (R156). -/
def carryFlag (a b : Byte) : Byte := flagByte (decide (a.toNat + b.toNat > 255))

/-- No-borrow of `minuend - subtrahend` (R157, R160). -/
def noBorrowFlag (minuend subtrahend : Byte) : Byte := flagByte (decide (minuend.toNat ≥ subtrahend.toNat))

/-- The bit a right shift shifts out, `s[0]` (R159). -/
def shiftedOutLow (b : Byte) : Byte := flagByte (b.getLsbD 0)

/-- The bit a left shift shifts out, `s[7]` (R161). -/
def shiftedOutHigh (b : Byte) : Byte := flagByte (b.getLsbD 7)

/-- The write order of the flag-writing arithmetic: VF first, then V[x], so that with `x = 15` the result replaces the flag
(R158, D11). The operands are latched by the caller (R14). -/
def State.flagThenResult (s : State) (x : Reg) (flag result : Byte) : State :=
  (s.setReg VF flag).setReg x result

end Sys2Proof.Machine
end

