-- ==== Sys2Proof/Machine/Operands.lean ====
section
/-! DEFINITION. The operand forms of the instructions: which register a form reads, which address it names (spec/00_scope.md
rules R9, R14; spec/46_index_memory.md). -/

namespace Sys2Proof.Machine

/-- `zext_16(nnn)` (R83). -/
def addrWord (nnn : Addr12) : Word := nnn.zeroExtend 16

/-- `zext_16(b)` (R83). -/
def byteWord (b : Byte) : Word := b.zeroExtend 16

/-- The shift source: V[x] in place, V[y] when SHIFT_MODE is copy_vy (R159, R161). -/
def State.shiftSource (s : State) (x y : Reg) : Byte :=
  match s.config.shiftMode with
  | .inPlace => s.reg x
  | .copyVy => s.reg y

/-- The register index kept in the top nibble of `nnn` (R133). -/
def jumpReg (nnn : Addr12) : Reg := regOfBits (nnn.extractLsb' 8 4)

/-- The offset of the indexed jump: V[0], or V[x] when JUMP_MODE is vx (R133). -/
def State.jumpOffset (s : State) (nnn : Addr12) : Byte :=
  match s.config.jumpMode with
  | .v0 => s.reg 0
  | .vx => s.reg (jumpReg nnn)

/-- The base address of every data access: I as a natural number, without wrap (R13, R51). -/
def State.base (s : State) : Nat := s.iReg.toNat

/-- How many registers a block transfer moves: V0 to Vx, both included (R194, R195). -/
def blockCount (x : Reg) : Nat := x.val + 1

/-- I after a block transfer: unchanged, or plus x + 1 when MEM_I_MODE is increment (R194, R195). -/
def State.stepI (s : State) (x : Reg) : State :=
  match s.config.memIMode with
  | .unchanged => s
  | .increment => s.setI (BitVec.ofNat 16 (s.base + blockCount x))

/-- The key V[x] names; KeyRange when there is none (R144, R145, R183, R203, D10). -/
def State.withKey (s : State) (x : Reg) (k : Bool → StepResult) : StepResult :=
  if h : (s.reg x).toNat < 16 then k (s.key ⟨(s.reg x).toNat, h⟩)
  else raiseFault (.keyRange s.instrAddr (s.reg x))

/-- The glyph address of a digit: FONT_BASE plus five times the whole byte (R192, D20). -/
def State.glyphAddr (s : State) (x : Reg) : Word :=
  BitVec.ofNat 16 (s.config.fontBase + 5 * (s.reg x).toNat)

/-- Hundreds, tens and ones of a byte, in that order (R193). -/
def bcdDigits (b : Byte) : List Byte :=
  [BitVec.ofNat 8 (b.toNat / 100), BitVec.ofNat 8 (b.toNat / 10 % 10), BitVec.ofNat 8 (b.toNat % 10)]

/-- The sprite's column: V[x] reduced modulo the width (R171). -/
def State.spriteX (s : State) (x : Reg) : Nat := (s.reg x).toNat % 64

/-- The sprite's row: V[y] reduced modulo the height (R171). -/
def State.spriteY (s : State) (y : Reg) : Nat := (s.reg y).toNat % 32

end Sys2Proof.Machine
end

