-- ==== Sys2Proof/Machine/Arith.lean ====
section
/-! DEFINITION. Load, arithmetic, logic, shift and random (spec/43_arithmetic_logic.md). Operands are the values at the start of
the execute phase (spec/00_scope.md rule R14). -/

namespace Sys2Proof.Machine

/-- 6xnn (R150). -/
def execLdImm (x : Reg) (nn : Byte) (s : State) : StepResult := .next (s.setReg x nn)

/-- 7xnn (R151): wraps modulo 256, no flag. -/
def execAddImm (x : Reg) (nn : Byte) (s : State) : StepResult := .next (s.setReg x (s.reg x + nn))

/-- 8xy0 (R152). -/
def execLdReg (x y : Reg) (s : State) : StepResult := .next (s.setReg x (s.reg y))

/-- 8xy1 (R153): VF is not written (D12). -/
def execOrReg (x y : Reg) (s : State) : StepResult := .next (s.setReg x (s.reg x ||| s.reg y))

/-- 8xy2 (R154): VF is not written (D12). -/
def execAndReg (x y : Reg) (s : State) : StepResult := .next (s.setReg x (s.reg x &&& s.reg y))

/-- 8xy3 (R155): VF is not written (D12). -/
def execXorReg (x y : Reg) (s : State) : StepResult := .next (s.setReg x (s.reg x ^^^ s.reg y))

/-- 8xy4 (R156). -/
def execAddReg (x y : Reg) (s : State) : StepResult :=
  .next (s.flagThenResult x (carryFlag (s.reg x) (s.reg y)) (s.reg x + s.reg y))

/-- 8xy5 (R157). -/
def execSub (x y : Reg) (s : State) : StepResult :=
  .next (s.flagThenResult x (noBorrowFlag (s.reg x) (s.reg y)) (s.reg x - s.reg y))

/-- 8xy6 (R159): a logical shift by one. -/
def execShr (x y : Reg) (s : State) : StepResult :=
  .next (s.flagThenResult x (shiftedOutLow (s.shiftSource x y)) (s.shiftSource x y >>> 1))

/-- 8xy7 (R160). -/
def execSubn (x y : Reg) (s : State) : StepResult :=
  .next (s.flagThenResult x (noBorrowFlag (s.reg y) (s.reg x)) (s.reg y - s.reg x))

/-- 8xyE (R161). -/
def execShl (x y : Reg) (s : State) : StepResult :=
  .next (s.flagThenResult x (shiftedOutHigh (s.shiftSource x y)) (s.shiftSource x y <<< 1))

/-- Cxnn (R162): the free random byte under the mask. -/
def execRnd (x : Reg) (nn : Byte) (s : State) : StepResult :=
  .next (s.consumeRnd.setReg x (s.rndByte &&& nn))

end Sys2Proof.Machine
end

