-- ==== Sys2Proof/Machine/ControlTransfer.lean ====
section
/-! DEFINITION. Control transfer (spec/41_control_transfer.md). `pc` is the instruction's address plus 2. -/

namespace Sys2Proof.Machine

/-- 1nnn (R130). -/
def execJp (nnn : Addr12) (s : State) : StepResult := .next (s.setPc (addrWord nnn))

/-- 2nnn (R131): the advanced pc is pushed, after the limit check (D8). -/
def execCall (nnn : Addr12) (s : State) : StepResult :=
  if s.stackFull then raiseFault (.stackOverflow s.instrAddr)
  else .next ((s.push s.pc).setPc (addrWord nnn))

/-- 00EE (R132). -/
def execRet (s : State) : StepResult :=
  match s.stack with
  | [] => raiseFault (.stackUnderflow s.instrAddr)
  | top :: rest => .next { s with stack := rest, pc := top }

/-- Bnnn (R133): the sum is not reduced to 12 bits (D25). -/
def execJpOff (nnn : Addr12) (s : State) : StepResult :=
  .next (s.setPc (addrWord nnn + byteWord (s.jumpOffset nnn)))

end Sys2Proof.Machine
end

