-- ==== Sys2Proof/Machine/DisplayOps.lean ====
section
/-! DEFINITION. The display buffer's cells and the XOR raster operation (spec/10_state.md rule R29; spec/44_display.md rule
R171), loop by loop as the rule writes it. -/

namespace Sys2Proof.Machine

/-- `D[px, py]`, column then row; no cell is on outside the grid (R13, R29). -/
def Display.pixel (d : Display) (px py : Nat) : Bool :=
  if hy : py < 32 then
    if hx : px < 64 then (d[py])[px] else false
  else false

/-- `D[px, py] <- D[px, py] xor 1`. -/
def Display.flip (d : Display) (px py : Nat) : Display :=
  if hy : py < 32 then d.set py ((d[py]).setIfInBounds px (!d.pixel px py)) else d

/-- The buffer being drawn on, and whether a collision happened so far (VF, R171). -/
abbrev Canvas := Display × Bool

/-- One column of one sprite row: clipped past the right edge, and nothing for a sprite bit of 0 (R171). -/
def drawCell (row : Byte) (x0 py : Nat) (c : Canvas) (col : Nat) : Canvas :=
  if x0 + col ≤ 63 ∧ row.getLsbD (7 - col) = true then
    (c.1.flip (x0 + col) py, c.2 || c.1.pixel (x0 + col) py)
  else c

/-- One sprite row, most significant bit leftmost (R171). -/
def drawRow (row : Byte) (x0 py : Nat) (c : Canvas) : Canvas :=
  (List.range 8).foldl (drawCell row x0 py) c

/-- `n` sprite rows from address `base`, clipped below the bottom edge (R171). -/
def State.drawSprite (s : State) (x0 y0 base n : Nat) : Canvas :=
  (List.range n).foldl
    (fun c r => if y0 + r ≤ 31 then drawRow (s.byte (base + r)) x0 (y0 + r) c else c) (s.display, false)

/-- The buffer after CLS or DRW: `redraw <- 1` whether or not a cell changed (R116, D17). -/
def State.setDisplay (s : State) (d : Display) : State := { s with display := d, redraw := true }

end Sys2Proof.Machine
end

