-- ==== Sys2Proof/Machine/DisplayFamily.lean ====
section
/-! DEFINITION. Clear and sprite draw (spec/44_display.md). -/

namespace Sys2Proof.Machine

/-- 00E0 (R170). -/
def execCls (s : State) : StepResult := .next (s.setDisplay Display.clear)

/-- Dxyn (R171): the range check covers all `n` rows, clipped or not (D9); the coordinates are latched before VF is written; VF is
the collision, 0 when there is none (D16). -/
def execDrw (x y : Reg) (n : Nat) (s : State) : StepResult :=
  s.withRange s.base n
    (let c := s.drawSprite (s.spriteX x) (s.spriteY y) s.base n
     .next ((s.setDisplay c.1).setReg VF (flagByte c.2)))

end Sys2Proof.Machine
end

