-- ==== Sys2Proof/Machine/IndexMemory.lean ====
section
/-! DEFINITION. Address register, font address, BCD and register block transfer (spec/46_index_memory.md). -/

namespace Sys2Proof.Machine

/-- Annn (R190). -/
def execLdI (nnn : Addr12) (s : State) : StepResult := .next (s.setI (addrWord nnn))

/-- Fx1E (R191): wraps modulo 65536, VF is not written (D19). -/
def execAddI (x : Reg) (s : State) : StepResult := .next (s.setI (s.iReg + byteWord (s.reg x)))

/-- Fx29 (R192). -/
def execLdF (x : Reg) (s : State) : StepResult := .next (s.setI (s.glyphAddr x))

/-- Fx33 (R193): hundreds, tens, ones at I, I + 1, I + 2. -/
def execBcd (x : Reg) (s : State) : StepResult :=
  s.withRange s.base 3 (.next (s.storeBytes s.base (bcdDigits (s.reg x))))

/-- Fx55 (R194): V0 to Vx to memory from I on. -/
def execStore (x : Reg) (s : State) : StepResult :=
  s.withRange s.base (blockCount x)
    (.next ((s.storeBytes s.base (s.v.toList.take (blockCount x))).stepI x))

/-- Fx65 (R195): V0 to Vx from memory from I on. -/
def execLoad (x : Reg) (s : State) : StepResult :=
  s.withRange s.base (blockCount x) (.next ((s.loadRegs s.base (blockCount x)).stepI x))

end Sys2Proof.Machine
end

