-- ==== Sys2Proof/Machine/Nop.lean ====
section
/-! DEFINITION. NOP, the meaning of every word no other row selects (spec/40_step_cycle.md rule R120). -/

namespace Sys2Proof.Machine

/-- NOP (R120): nothing; the step around it advances pc and ticks. -/
def execNop (s : State) : StepResult := .next s

end Sys2Proof.Machine
end

