-- ==== Sys2Proof/Machine/Skip.lean ====
section
/-! DEFINITION. Conditional skips (spec/42_conditional_skip.md): a taken skip adds 2 to the advanced pc (R146). -/

namespace Sys2Proof.Machine

/-- The skip of R146. -/
def State.skipIf (s : State) (c : Bool) : StepResult := .next (if c then s.setPc (s.pc + 2) else s)

/-- 3xnn (R140). -/
def execSeImm (x : Reg) (nn : Byte) (s : State) : StepResult := s.skipIf (s.reg x == nn)

/-- 4xnn (R141). -/
def execSneImm (x : Reg) (nn : Byte) (s : State) : StepResult := s.skipIf (s.reg x != nn)

/-- 5xyn (R142). -/
def execSeReg (x y : Reg) (s : State) : StepResult := s.skipIf (s.reg x == s.reg y)

/-- 9xyn (R143). -/
def execSneReg (x y : Reg) (s : State) : StepResult := s.skipIf (s.reg x != s.reg y)

/-- Ex9E (R144). -/
def execSkp (x : Reg) (s : State) : StepResult := s.withKey x fun down => s.skipIf down

/-- ExA1 (R145). -/
def execSknp (x : Reg) (s : State) : StepResult := s.withKey x fun down => s.skipIf (!down)

end Sys2Proof.Machine
end

