-- ==== Sys2Proof/Machine/TimersKeys.lean ====
section
/-! DEFINITION. Timer access and key-wait (spec/45_timers_keys.md). The tick is the step's (spec/40_step_cycle.md rule R117). -/

namespace Sys2Proof.Machine

/-- Fx07 (R180): DT before this step's tick. -/
def execLdFromDt (x : Reg) (s : State) : StepResult := .next (s.setReg x s.dt)

/-- Fx15 (R181). -/
def execLdDt (x : Reg) (s : State) : StepResult := .next (s.setDt (s.reg x))

/-- Fx18 (R182). -/
def execLdSt (x : Reg) (s : State) : StepResult := .next (s.setSt (s.reg x))

/-- Fx0A (R183): while the one key V[x] names is up, back onto this instruction; no register is written. -/
def execKeyWait (x : Reg) (s : State) : StepResult :=
  s.withKey x fun down => .next (if down then s else s.setPc (s.pc - 2))

end Sys2Proof.Machine
end

