-- ==== Sys2Proof/Machine/Step.lean ====
section
/-! DEFINITION. The step, CORE's only transition (spec/40_step_cycle.md rule R110). -/

namespace Sys2Proof.Machine

/-- Fetch, advance, decode, execute, tick (R110). In `Faulted(reason)` there is no step (R111, R205): the machine stays stopped
with that reason. -/
def step (s : State) : Host.Outcome State Fault Refusal :=
  match s.status with
  | .faulted r => .fault r
  | .running =>
    if s.canFetch then finishStep (exec (decode s.fetchWord) s.beginExecute)
    else raiseFault s.fetchFault

/-- `s` with an instruction word of spec/opcode_table.json stored at `pc`, high byte first (R53): the stand-in for a program
load (R60; log 17, log 24). -/
def State.withFetchWord (s : State) (nbits w : Nat) : State :=
  s.storeBytes s.pc.toNat (bytesOfWord (BitVec.ofNat 16 (w % 2 ^ nbits)))

end Sys2Proof.Machine
end

