-- ==== Sys2Proof/Machine/Ports.lean ====
section
/-! DEFINITION. The four ports and the host's moves between steps (spec/60_exceptions.md rules R216 to R222; spec/20_memory.md rule
R60), and the end-of-run predicate (spec/40_step_cycle.md rule R121). -/

namespace Sys2Proof.Machine

/-- Why a port turns a host move away. None is a fault of CORE (R222). -/
inductive PortError where
  /-- The image is longer than 3584 bytes (R60). -/
  | loadTooLarge
  /-- A second load, or a load after the first step (R60, U26). -/
  | loadClosed
  /-- A key index above 15 (R217). -/
  | noSuchKey
  /-- Display coordinates outside the grid (R218). -/
  | noSuchCell
  deriving DecidableEq, Repr

/-- PROG_BASE (R7). -/
def progBase : Nat := 0x200

/-- The program load port (R60, R216): the whole image at 0x200, or nothing (D21). -/
def loadProgram (img : List Byte) (s : State) : Except PortError State :=
  if s.loadOpen then
    if img.length + progBase > memSize then .error .loadTooLarge
    else .ok { s.storeBytes progBase img with loadOpen := false }
  else .error .loadClosed

/-- The key write port (R217). -/
def setKey (k : Nat) (down : Bool) (s : State) : Except PortError State :=
  if k < 16 then .ok { s with keys := s.keys.setIfInBounds k down } else .error .noSuchKey

/-- The display read port (R218): a lookup with no effect. -/
def getPixel (px py : Nat) (s : State) : Except PortError Bool :=
  if px < 64 ∧ py < 32 then .ok (s.display.pixel px py) else .error .noSuchCell

/-- What everything but the run status, the parameters, the keys and the load port holds after a fault: "unspecified and must not be relied on" (R205). It
has no body (log 8). -/
opaque unspecifiedAfterFault : State → State

/-- The machine in `Faulted(r)` (R205). The load port is closed, as after every step (R60). -/
def State.enterFault (s : State) (r : Fault) : State :=
  { unspecifiedAfterFault s with status := .faulted r, config := s.config, keys := s.keys, loadOpen := false }

/-- The step port: what the host holds after it called the step once (R219, R205). A faulted machine stays as it is (R111). -/
def callStep (s : State) : State :=
  match s.status with
  | .faulted _ => s
  | .running =>
    match step s with
    | .next t => t
    | .fault r => s.enterFault r
    | .refused _ => s

/-- The host's moves that change the machine, each between two steps (R220). -/
inductive HostMove where
  | load (img : List Byte)
  | setKey (k : Nat) (down : Bool)
  | step
  deriving DecidableEq, Repr

/-- The effect of one host move (R15, R216 to R221). -/
def hostMove (m : HostMove) (s : State) : Except PortError State :=
  match m with
  | .load img => loadProgram img s
  | .setKey k down => setKey k down s
  | .step => .ok (callStep s)

/-! ### The end of a run -/

/-- The end-of-run predicate R121 asks a model to define. DESIGN CHOICE (safe, log 27): it is the one R121 names, "pc points at a
jump-to-self": a running machine whose fetch is in range and reads `1nnn` at address `nnn`. A faulted machine is never at a good
end (R205). No step reads it: CORE has no halt, and the host alone stops a run. -/
def State.endOfRun (s : State) : Bool :=
  decide (s.status = .running) && s.canFetch &&
    match decode s.fetchWord with
    | .jp nnn => addrWord nnn == s.pc
    | _ => false

end Sys2Proof.Machine
end

