-- ==== Sys2Proof/Safety.lean ====
section
/-! DEFINITION. The terms the claims use: the parts of a state and what a transition leaves unchanged, how an execute phase
completes, when a step stops (spec/60_exceptions.md rule R200), the register table of spec/10_state.md rule R22, the invariant,
and the sprite as a set of cells (spec/44_display.md rule R171). They are written from the rules, not from the meanings. -/

namespace Sys2Proof.Machine

/-! ### Parts and frames -/

/-- One observable part of a state. Memory is observed byte by byte, the display cell by cell. -/
inductive Part where
  | reg (r : Reg)
  | iReg
  | pc
  | dt
  | st
  | stack
  | byte (a : Nat)
  | pixel (px py : Nat)
  | key (k : Fin 16)
  | status
  | config
  | redraw
  | sound
  | loadOpen
  | rndIndex
  deriving DecidableEq, Repr

/-- The part has the same value in both states. -/
def Part.Unchanged (s t : State) : Part → Prop
  | .reg r => t.reg r = s.reg r
  | .iReg => t.iReg = s.iReg
  | .pc => t.pc = s.pc
  | .dt => t.dt = s.dt
  | .st => t.st = s.st
  | .stack => t.stack = s.stack
  | .byte a => t.byte a = s.byte a
  | .pixel px py => t.display.pixel px py = s.display.pixel px py
  | .key k => t.key k = s.key k
  | .status => t.status = s.status
  | .config => t.config = s.config
  | .redraw => t.redraw = s.redraw
  | .sound => t.sound = s.sound
  | .loadOpen => t.loadOpen = s.loadOpen
  | .rndIndex => t.rndIndex = s.rndIndex

/-- From `s` to `t` nothing but the parts of `may` may differ. -/
def OnlyChanges (s t : State) (may : Part → Prop) : Prop := ∀ p, ¬ may p → p.Unchanged s t

/-- The execute phase or step answers a next state, and it is as `post` says. -/
def Completes (o : StepResult) (post : State → Prop) : Prop := ∃ t, o = .next t ∧ post t

/-- `count` steps one after the other, stopping at the first fault or refusal: the host calling the step port with no other move
between (R15, R221). -/
def runSteps : Nat → State → StepResult
  | 0, s => .next s
  | count + 1, s =>
    match step s with
    | .next t => runSteps count t
    | .fault r => .fault r
    | .refused r => .refused r

/-! ### When an instruction faults (R200) -/

/-- The fault of an access of `len` bytes at I, if one of them lies above 4095 (R52, R200). -/
def rangeFault (s : State) (len : Nat) : Option Fault :=
  if 1 ≤ len ∧ s.iReg.toNat + (len - 1) > 4095 then some (.memRange (s.pc - 2) (max s.iReg.toNat 4096)) else none

/-- The fault of naming a key above 15 (R203). -/
def keyFault (s : State) (x : Reg) : Option Fault :=
  if (s.reg x).toNat > 15 then some (.keyRange (s.pc - 2) (s.reg x)) else none

/-- The table of R200: the fault an instruction raises in its execute phase, with the information a diagnostic carries. `pc` is
the instruction's address plus 2. -/
def faultOf : Instr → State → Option Fault
  | .ret, s => if s.stack = [] then some (.stackUnderflow (s.pc - 2)) else none
  | .call _, s => if s.config.stackLimit = some s.stack.length then some (.stackOverflow (s.pc - 2)) else none
  | .drw _ _ n, s => rangeFault s n
  | .bcd _, s => rangeFault s 3
  | .store x, s => rangeFault s (x.val + 1)
  | .load x, s => rangeFault s (x.val + 1)
  | .skp x, s => keyFault s x
  | .sknp x, s => keyFault s x
  | .keyWait x, s => keyFault s x
  | .cls, _ | .jp _, _ | .seImm _ _, _ | .sneImm _ _, _ | .seReg _ _, _ | .sneReg _ _, _ => none
  | .ldImm _ _, _ | .addImm _ _, _ | .ldReg _ _, _ | .orReg _ _, _ | .andReg _ _, _ | .xorReg _ _, _ => none
  | .addReg _ _, _ | .sub _ _, _ | .shr _ _, _ | .subn _ _, _ | .shl _ _, _ | .rnd _ _, _ => none
  | .ldI _, _ | .jpOff _, _ | .ldFromDt _, _ | .ldDt _, _ | .ldSt _, _ | .addI _, _ | .ldF _, _ | .nop, _ => none

/-- A safe step: running, both bytes of the fetch in memory, and the decoded instruction raises no fault (R112, R200). -/
def SafeStep (s : State) : Prop :=
  s.status = .running ∧ s.pc.toNat + 1 ≤ 4095 ∧ faultOf (decode s.fetchWord) s.beginExecute = none

/-! ### The register table of R22 -/

/-- The column "writes" of R22. -/
def writesReg : Instr → Reg → Bool
  | .ldImm x _, r | .addImm x _, r | .ldReg x _, r | .orReg x _, r | .andReg x _, r | .xorReg x _, r => r == x
  | .addReg x _, r | .sub x _, r | .subn x _, r | .shr x _, r | .shl x _, r => r == x || r == 15
  | .rnd x _, r | .ldFromDt x, r => r == x
  | .drw _ _ _, r => r == 15
  | .load x, r => decide (r ≤ x)
  | .cls, _ | .ret, _ | .jp _, _ | .call _, _ | .ldI _, _ | .jpOff _, _ | .nop, _ => false
  | .seImm _ _, _ | .sneImm _ _, _ | .seReg _ _, _ | .sneReg _ _, _ | .skp _, _ | .sknp _, _ | .keyWait _, _ => false
  | .ldDt _, _ | .ldSt _, _ | .addI _, _ | .ldF _, _ | .bcd _, _ | .store _, _ => false

/-- The column "reads" of R22, under the parameters of the instance. -/
def readsReg (c : Config) : Instr → Reg → Bool
  | .seImm x _, r | .sneImm x _, r | .addImm x _, r => r == x
  | .seReg x y, r | .sneReg x y, r => r == x || r == y
  | .ldReg _ y, r => r == y
  | .orReg x y, r | .andReg x y, r | .xorReg x y, r | .addReg x y, r | .sub x y, r | .subn x y, r => r == x || r == y
  | .shr x y, r | .shl x y, r => r == (if c.shiftMode = .inPlace then x else y)
  | .jpOff nnn, r => r.val == (if c.jumpMode = .v0 then 0 else nnn.toNat / 256)
  | .drw x y _, r => r == x || r == y
  | .skp x, r | .sknp x, r | .keyWait x, r => r == x
  | .ldDt x, r | .ldSt x, r | .addI x, r | .ldF x, r | .bcd x, r => r == x
  | .store x, r => decide (r ≤ x)
  | .ldImm _ _, _ | .rnd _ _, _ | .ldFromDt _, _ | .load _, _ => false
  | .cls, _ | .ret, _ | .jp _, _ | .call _, _ | .ldI _, _ | .nop, _ => false

/-! ### The invariant -/

/-- What every step keeps: legal parameters (R8, R10), memory in canonical form, pc in 0 to 0x10FE and stack entries at most 4096
(R24, R132), and no more stack entries than STACK_LIMIT (R131). -/
abbrev State.Inv (s : State) : Prop :=
  s.config.legal ∧ Memory.wf s.config.fontBase s.mem = true ∧ s.pc.toNat ≤ 0x10FE ∧
  (∀ w ∈ s.stack, w.toNat ≤ 4096) ∧ s.stack.length ≤ s.config.stackLimit.getD s.stack.length

/-! ### The sprite as a set of cells (R171) -/

/-- The sprite bit that lands on cell `(px, py)`: row `py - y0`, most significant bit leftmost; none outside the sprite or the
grid. `rows` gives the sprite's bytes. -/
def spriteBit (rows : Nat → Byte) (x0 y0 n px py : Nat) : Bool :=
  decide (px < 64 ∧ py < 32 ∧ x0 ≤ px ∧ px < x0 + 8 ∧ y0 ≤ py ∧ py < y0 + n) && (rows (py - y0)).getLsbD (7 - (px - x0))

/-- The sprite DRW draws in state `s` (R171). -/
def State.sprite (s : State) (x y : Reg) (n px py : Nat) : Bool :=
  spriteBit (fun r => s.byte (s.iReg.toNat + r)) ((s.reg x).toNat % 64) ((s.reg y).toNat % 32) n px py

end Sys2Proof.Machine
end

