-- ==== Sys2Proof/Certificates/Slice0/Obligations.lean ====
section
/-! DEFINITION. The statements for the provers. `pc` in a statement about `exec` is the instruction's address plus 2 (R113). D<n> is
a decision of spec/92_eei_decisions.md: a clause that rests on one is the spec's own choice, not its source's, and the statement
is marked derived. -/

open Sys2Proof Sys2Proof.Machine

/-! ### Encoding (30_encoding.md) -/

/-- Words written out from the encodings of R85, one or more for each of the sixteen opcode families (R17), decode to the instruction they stand for. The numeric
patterns are the spec's choice (D1, D2; log 14). -/
def Obligations.SampleWordsDecode : Prop :=
  decode 0x00E0 = .cls ∧ decode 0x00EE = .ret ∧
  decode 0x1204 = .jp 0x204 ∧ decode 0x220A = .call 0x20A ∧
  decode 0x3A42 = .seImm 10 0x42 ∧ decode 0x4A42 = .sneImm 10 0x42 ∧
  decode 0x512F = .seReg 1 2 ∧ decode 0x912F = .sneReg 1 2 ∧
  decode 0x6005 = .ldImm 0 5 ∧ decode 0xA300 = .ldI 0x300 ∧
  decode 0x71FF = .addImm 1 0xFF ∧ decode 0x8124 = .addReg 1 2 ∧
  decode 0x812E = .shl 1 2 ∧ decode 0xB2F0 = .jpOff 0x2F0 ∧
  decode 0xC30F = .rnd 3 0x0F ∧ decode 0xD125 = .drw 1 2 5 ∧
  decode 0xE39E = .skp 3 ∧ decode 0xF20A = .keyWait 2 ∧
  decode 0xF033 = .bcd 0 ∧ decode 0xF265 = .load 2 ∧
  decode 0x8128 = .nop ∧ decode 0x0123 = .nop

/-- Decoding the stored bytes of an encoded well-formed instruction gives it back, whatever bytes follow (R80, R81, R84, R85; numeric
patterns D1, D2). -/
def Obligations.DecodeEncodeRoundTrip : Prop :=
  ∀ (i : Instr) (rest : List Byte), i.wf = true →
    decodeBytes (bytesOfWord (encode i) ++ rest) = .ok (i, rest)

/-- Encoding what a word decodes to gives the word back, for every word that is not NOP; in families 5 and 9, whose low nibble is
ignored (R88, D3), it gives the word with `n = 0` (R142, R143). -/
def Obligations.EncodeDecodeCanonical : Prop :=
  ∀ w : Word, decode w ≠ .nop →
    encode (decode w) = if opField w = 0x5 ∨ opField w = 0x9 then w &&& 0xFFF0 else w

/-- The decoder of R84 agrees with the opcode map of R85: the rows a word selects are none when it decodes to NOP, and otherwise the
one row of the decoded instruction; so rows do not overlap. Every decoded instruction is well formed. -/
def Obligations.DecoderFollowsOpcodeMap : Prop :=
  ∀ w : Word, (decode w).wf = true ∧
    (opcodeMap.filter (fun r => r.selects w)).map OpcodeRow.mnemonic =
      if decode w = .nop then [] else [(decode w).mnemonic]

/-- The words that decode to NOP are the four classes of R87. -/
def Obligations.NopWordClasses : Prop :=
  ∀ w : Word, decode w = .nop ↔
    (opField w = 0x0 ∧ w ≠ 0x00E0 ∧ w ≠ 0x00EE) ∨
    (opField w = 0x8 ∧ nField w ∈ [0x8, 0x9, 0xA, 0xB, 0xC, 0xD, 0xF]) ∨
    (opField w = 0xE ∧ nnField w ∉ [0x9E, 0xA1]) ∨
    (opField w = 0xF ∧ nnField w ∉ [0x07, 0x0A, 0x15, 0x18, 0x1E, 0x29, 0x33, 0x55, 0x65])

/-! ### The step (40_step_cycle.md) -/

/-- R110, R112: a running machine whose fetch is in range executes the instruction its two bytes decode to, at the state with pc
advanced by 2 and the redraw output cleared, then ticks both timers toward zero and samples the sound output; a fault of the execute
phase is the step's; out of range the fetch faults. That the sound is sampled after the tick is the spec's decision D18 (R118, log 19);
that the fetch fault carries the first address above 4095, the larger of pc and 4096, is deduced from R200 (log 9); `beginExecute` also
closes the load port, a field of the model's own (log 17). -/
def Obligations.StepRunsDecodedInstruction : Prop :=
  ∀ (s : State) (i : Instr), s.status = .running →
    (s.pc.toNat + 1 ≤ 4095 →
      decodeBytes [s.byte s.pc.toNat, s.byte (s.pc.toNat + 1)] = .ok (i, []) →
      s.beginExecute.pc = s.pc + 2 ∧ s.beginExecute.redraw = false ∧
      OnlyChanges s s.beginExecute (· ∈ [.pc, .redraw, .loadOpen]) ∧
      (∀ t, exec i s.beginExecute = .next t → Completes (step s) fun t' =>
        t'.dt.toNat = t.dt.toNat - 1 ∧ t'.st.toNat = t.st.toNat - 1 ∧ (t'.sound = true ↔ t'.st ≠ 0) ∧
        OnlyChanges t t' (· ∈ [.dt, .st, .sound])) ∧
      (∀ r, exec i s.beginExecute = .fault r → step s = .fault r)) ∧
    (s.pc.toNat + 1 > 4095 → step s = .fault (.memRange s.pc (max s.pc.toNat 4096)))

/-- R111, R205, R33 (terminal: D22): a faulted machine makes no step and keeps its status under every host move; a running machine whose
step faults becomes Faulted with that reason, its keys and parameters as they were (R30, R35) and the load port closed. The model's own
choices: that `step` answers the same fault again where R111 has no step, and that keys and parameters stay while the rest is unspecified
(log 8); that the port is then closed (log 17). -/
def Obligations.FaultedIsTerminal : Prop :=
  (∀ (s : State) (r : Fault), s.status = .faulted r →
    step s = .fault r ∧ ∀ (m : HostMove) (t : State), hostMove m s = .ok t → t.status = .faulted r) ∧
  (∀ (s : State) (r : Fault), s.status = .running → step s = .fault r →
    ∃ t, hostMove .step s = .ok t ∧ t.status = .faulted r ∧ t.config = s.config ∧ (∀ k, t.key k = s.key k) ∧
      t.loadOpen = false)

/-- R117, R212: in every step that completes, each timer ends one below the value the execute phase left, and never below zero; that
value is V[x] when the step executes Fx15 (DT) or Fx18 (ST), and the old timer otherwise. -/
def Obligations.TimersTickEveryStep : Prop :=
  ∀ s t : State, step s = .next t →
    (t.dt.toNat = (match decode s.fetchWord with | .ldDt x => (s.reg x).toNat | _ => s.dt.toNat) - 1) ∧
    (t.st.toNat = (match decode s.fetchWord with | .ldSt x => (s.reg x).toNat | _ => s.st.toNat) - 1)

/-- R116 (D17), R118 (D18): the redraw output is 1 exactly when the step executed CLS or DRW; the sound output is 1 exactly when ST is
not zero after the tick. -/
def Obligations.StepOutputsAreTheHints : Prop :=
  ∀ s t : State, step s = .next t →
    (t.redraw = true ↔ decode s.fetchWord = .cls ∨ ∃ x y n, decode s.fetchWord = .drw x y n) ∧
    (t.sound = true ↔ t.st ≠ 0)

/-- R30, R35, R60: no step writes a key or a parameter; a completed step leaves the machine Running and the load port closed (the port's
flag is the model's own, log 17). -/
def Obligations.StepNeverWritesKeysOrParameters : Prop :=
  ∀ s t : State, step s = .next t →
    (∀ k, t.key k = s.key k) ∧ t.config = s.config ∧ t.status = .running ∧ t.loadOpen = false

/-- R54, R56: a step changes a byte of memory only when it executes Fx33 or Fx55, and then only one of the bytes the instruction stores
to. -/
def Obligations.MemoryChangesOnlyByBcdAndStore : Prop :=
  ∀ (s t : State) (a : Nat), step s = .next t → t.byte a ≠ s.byte a →
    (∃ x, decode s.fetchWord = .bcd x ∧ s.iReg.toNat ≤ a ∧ a ≤ s.iReg.toNat + 2) ∨
    (∃ x : Reg, decode s.fetchWord = .store x ∧ s.iReg.toNat ≤ a ∧ a ≤ s.iReg.toNat + x.val)

/-- R28, R29, R25, R162: a step changes the call stack only by CALL and RET, the display only by CLS and DRW, I only by Annn, Fx1E, Fx29
and, when MEM_I_MODE is increment, Fx55 and Fx65; it draws a random byte only by Cxnn (the index is the model's own, log 6). -/
def Obligations.SpecialStateWriters : Prop :=
  ∀ s t : State, step s = .next t →
    (t.stack ≠ s.stack → decode s.fetchWord = .ret ∨ ∃ nnn, decode s.fetchWord = .call nnn) ∧
    (∀ px py, t.display.pixel px py ≠ s.display.pixel px py →
      decode s.fetchWord = .cls ∨ ∃ x y n, decode s.fetchWord = .drw x y n) ∧
    (t.iReg ≠ s.iReg →
      (∃ nnn, decode s.fetchWord = .ldI nnn) ∨ (∃ x, decode s.fetchWord = .addI x) ∨
      (∃ x, decode s.fetchWord = .ldF x) ∨
      (s.config.memIMode = .increment ∧ ∃ x, decode s.fetchWord = .store x ∨ decode s.fetchWord = .load x)) ∧
    (t.rndIndex ≠ s.rndIndex → ∃ x nn, decode s.fetchWord = .rnd x nn)

/-- The column "writes" of R22 (the spec's own derivation): a register an instruction's row does not list is unchanged by it. -/
def Obligations.RegistersWrittenPerTable : Prop :=
  ∀ (i : Instr) (s t : State) (r : Reg), exec i s = .next t → writesReg i r = false → t.reg r = s.reg r

/-- The column "reads" of R22 (the spec's own derivation): from two states that differ only in registers the instruction's row does not list
as read, it faults alike, and it completes alike: the next states differ in V only and agree on every register it writes. -/
def Obligations.RegistersReadPerTable : Prop :=
  ∀ (i : Instr) (s : State) (w : Vector Byte 16),
    (∀ r : Reg, readsReg s.config i r = true → ({ s with v := w } : State).reg r = s.reg r) →
    (∀ f, exec i s = .fault f ↔ exec i { s with v := w } = .fault f) ∧
    (∀ t, exec i s = .next t → ∃ w', exec i { s with v := w } = .next { t with v := w' } ∧
      ∀ r : Reg, writesReg i r = true → ({ t with v := w' } : State).reg r = t.reg r)

/-- R34: nothing carries from one step's outputs to the next: a step does not depend on the outputs of the step before. -/
def Obligations.OutputsCarryNothing : Prop :=
  ∀ (s : State) (a b : Bool), step { s with redraw := a, sound := b } = step s

/-! ### Control transfer (41_control_transfer.md) -/

/-- R130: JP completes in every state, with pc at `nnn` and nothing else changed. -/
def Obligations.JumpSetsPc : Prop :=
  ∀ (nnn : Addr12) (s : State), Completes (exec (.jp nnn) s) fun t =>
    t.pc.toNat = nnn.toNat ∧ OnlyChanges s t (· ∈ [.pc])

/-- R131 (STACK_LIMIT is D8): below the limit CALL pushes the advanced pc and jumps; at the limit it faults with StackOverflow. -/
def Obligations.CallPushesAdvancedPc : Prop :=
  ∀ (nnn : Addr12) (s : State),
    (s.config.stackLimit ≠ some s.stack.length → Completes (exec (.call nnn) s) fun t =>
      t.stack = s.pc :: s.stack ∧ t.pc.toNat = nnn.toNat ∧ OnlyChanges s t (· ∈ [.pc, .stack])) ∧
    (s.config.stackLimit = some s.stack.length → exec (.call nnn) s = .fault (.stackOverflow (s.pc - 2)))

/-- R132, R201: RET pops the top of the stack into pc; on an empty stack it faults with StackUnderflow. -/
def Obligations.RetPopsIntoPc : Prop :=
  ∀ s : State,
    (∀ top rest, s.stack = top :: rest → Completes (exec .ret s) fun t =>
      t.pc = top ∧ t.stack = rest ∧ OnlyChanges s t (· ∈ [.pc, .stack])) ∧
    (s.stack = [] → exec .ret s = .fault (.stackUnderflow (s.pc - 2)))

/-- The property of section 8 quoted in R132 (E6): a call followed at once by a return restores pc to the instruction after the call, and
the stack, the registers, I and memory to what they were. -/
def Obligations.CallThenReturnComesBack : Prop :=
  ∀ (s t : State) (nnn : Addr12), step s = .next t → decode s.fetchWord = .call nnn → nnn.toNat + 1 ≤ 4095 →
    decode t.fetchWord = .ret → Completes (step t) fun u =>
      u.pc = s.pc + 2 ∧ u.stack = s.stack ∧ u.iReg = s.iReg ∧ (∀ r, u.reg r = s.reg r) ∧ ∀ a, u.byte a = s.byte a

/-- R133 (JUMP_MODE is D14, no reduction to 12 bits D25): the indexed jump completes with pc at `nnn` plus V[0] or, when JUMP_MODE is vx,
plus V[x], `x` the top nibble of `nnn`. -/
def Obligations.IndexedJumpAddsOffset : Prop :=
  ∀ (nnn : Addr12) (s : State), Completes (exec (.jpOff nnn) s) fun t =>
    (s.config.jumpMode = .v0 → t.pc.toNat = nnn.toNat + (s.reg 0).toNat) ∧
    (s.config.jumpMode = .vx → ∀ x : Reg, x.val = nnn.toNat / 256 → t.pc.toNat = nnn.toNat + (s.reg x).toNat) ∧
    OnlyChanges s t (· ∈ [.pc])

/-! ### Conditional skip and key-wait (42_conditional_skip.md, 45_timers_keys.md) -/

/-- R140 to R143: the four comparing skips complete in every state and add 2 to the advanced pc exactly when their condition holds. -/
def Obligations.CompareSkips : Prop :=
  ∀ (x y : Reg) (nn : Byte) (s : State),
    (Completes (exec (.seImm x nn) s) fun t =>
      t.pc = (if (s.reg x).toNat = nn.toNat then s.pc + 2 else s.pc) ∧ OnlyChanges s t (· ∈ [.pc])) ∧
    (Completes (exec (.sneImm x nn) s) fun t =>
      t.pc = (if (s.reg x).toNat = nn.toNat then s.pc else s.pc + 2) ∧ OnlyChanges s t (· ∈ [.pc])) ∧
    (Completes (exec (.seReg x y) s) fun t =>
      t.pc = (if (s.reg x).toNat = (s.reg y).toNat then s.pc + 2 else s.pc) ∧ OnlyChanges s t (· ∈ [.pc])) ∧
    (Completes (exec (.sneReg x y) s) fun t =>
      t.pc = (if (s.reg x).toNat = (s.reg y).toNat then s.pc else s.pc + 2) ∧ OnlyChanges s t (· ∈ [.pc]))

/-- R144, R145: with a key index of 0 to 15 SKP skips exactly when the key is down and SKNP exactly when it is up; with an index above 15
both fault with KeyRange (the fault is the spec's decision D10). -/
def Obligations.KeySkips : Prop :=
  ∀ (x : Reg) (s : State),
    (∀ k : Fin 16, (s.reg x).toNat = k.val →
      (Completes (exec (.skp x) s) fun t =>
        t.pc = (if s.key k = true then s.pc + 2 else s.pc) ∧ OnlyChanges s t (· ∈ [.pc])) ∧
      (Completes (exec (.sknp x) s) fun t =>
        t.pc = (if s.key k = true then s.pc else s.pc + 2) ∧ OnlyChanges s t (· ∈ [.pc]))) ∧
    ((s.reg x).toNat > 15 →
      exec (.skp x) s = .fault (.keyRange (s.pc - 2) (s.reg x)) ∧
      exec (.sknp x) s = .fault (.keyRange (s.pc - 2) (s.reg x)))

/-- R183: key-wait goes back onto itself while the key V[x] names is up, falls through when it is down, and writes no register; an index
above 15 faults with KeyRange (D10). -/
def Obligations.KeyWaitRewindsWhileUp : Prop :=
  ∀ (x : Reg) (s : State),
    (∀ k : Fin 16, (s.reg x).toNat = k.val → Completes (exec (.keyWait x) s) fun t =>
      t.pc = (if s.key k = true then s.pc else s.pc - 2) ∧ OnlyChanges s t (· ∈ [.pc])) ∧
    ((s.reg x).toNat > 15 → exec (.keyWait x) s = .fault (.keyRange (s.pc - 2) (s.reg x)))

/-- R183, R237: a machine at a key-wait whose key is up makes any number of steps, each a full one: pc stays, both timers count down once per
step, nothing else but the outputs and the load port changes; once the host has pressed the key the next step proceeds to the following
instruction with the registers unchanged. -/
def Obligations.KeyWaitRepeatsUntilPressed : Prop :=
  ∀ (s : State) (x : Reg) (k : Fin 16) (count : Nat), s.status = .running → s.pc.toNat + 1 ≤ 4095 →
    decode s.fetchWord = .keyWait x → (s.reg x).toNat = k.val → s.key k = false →
    ∃ t, runSteps count s = .next t ∧
      t.dt.toNat = s.dt.toNat - count ∧ t.st.toNat = s.st.toNat - count ∧
      OnlyChanges s t (· ∈ [.dt, .st, .redraw, .sound, .loadOpen]) ∧
      ∀ u, setKey k.val true t = .ok u → Completes (step u) fun w => w.pc = s.pc + 2 ∧ ∀ r, w.reg r = s.reg r

/-! ### Load, arithmetic, logic, shift, random (43_arithmetic_logic.md) -/

/-- R151: ADD immediate completes with the sum modulo 256 and writes no flag. -/
def Obligations.AddImmediateWraps : Prop :=
  ∀ (x : Reg) (nn : Byte) (s : State), Completes (exec (.addImm x nn) s) fun t =>
    (t.reg x).toNat = ((s.reg x).toNat + nn.toNat) % 256 ∧ OnlyChanges s t (· ∈ [.reg x])

/-- R150, R152 to R155 (their meanings are the spec's choice, D29; that VF is not written is D12): the loads and the bitwise operations
complete with the result bit by bit, and change nothing but V[x]. -/
def Obligations.LoadsAndBitwise : Prop :=
  ∀ (x y : Reg) (nn : Byte) (s : State),
    (Completes (exec (.ldImm x nn) s) fun t => t.reg x = nn ∧ OnlyChanges s t (· ∈ [.reg x])) ∧
    (Completes (exec (.ldReg x y) s) fun t => t.reg x = s.reg y ∧ OnlyChanges s t (· ∈ [.reg x])) ∧
    (Completes (exec (.orReg x y) s) fun t => OnlyChanges s t (· ∈ [.reg x]) ∧
      ∀ k < 8, (t.reg x).getLsbD k = ((s.reg x).getLsbD k || (s.reg y).getLsbD k)) ∧
    (Completes (exec (.andReg x y) s) fun t => OnlyChanges s t (· ∈ [.reg x]) ∧
      ∀ k < 8, (t.reg x).getLsbD k = ((s.reg x).getLsbD k && (s.reg y).getLsbD k)) ∧
    (Completes (exec (.xorReg x y) s) fun t => OnlyChanges s t (· ∈ [.reg x]) ∧
      ∀ k < 8, (t.reg x).getLsbD k = ((s.reg x).getLsbD k ^^ (s.reg y).getLsbD k))

/-- R156, R158 (write order and latching D11): the two-register add completes with the sum modulo 256 in V[x], also when x or y is 15, and
VF is 1 when the sum exceeds 255 and 0 otherwise, unless x is 15. -/
def Obligations.AddSetsCarry : Prop :=
  ∀ (x y : Reg) (s : State), Completes (exec (.addReg x y) s) fun t =>
    (t.reg x).toNat = ((s.reg x).toNat + (s.reg y).toNat) % 256 ∧
    (x ≠ 15 → (t.reg 15).toNat = if (s.reg x).toNat + (s.reg y).toNat > 255 then 1 else 0) ∧
    OnlyChanges s t (· ∈ [.reg x, .reg 15])

/-- R157, R160, R158 (write order D11; 8xy7's operand order D29): both subtractions complete with the difference modulo 256 in V[x], also
when x or y is 15, and VF is 1 when there is no borrow and 0 otherwise, unless x is 15. -/
def Obligations.SubtractSetsNoBorrow : Prop :=
  ∀ (x y : Reg) (s : State),
    (Completes (exec (.sub x y) s) fun t =>
      (t.reg x).toNat = ((s.reg x).toNat + 256 - (s.reg y).toNat) % 256 ∧
      (x ≠ 15 → (t.reg 15).toNat = if (s.reg x).toNat ≥ (s.reg y).toNat then 1 else 0) ∧
      OnlyChanges s t (· ∈ [.reg x, .reg 15])) ∧
    (Completes (exec (.subn x y) s) fun t =>
      (t.reg x).toNat = ((s.reg y).toNat + 256 - (s.reg x).toNat) % 256 ∧
      (x ≠ 15 → (t.reg 15).toNat = if (s.reg y).toNat ≥ (s.reg x).toNat then 1 else 0) ∧
      OnlyChanges s t (· ∈ [.reg x, .reg 15]))

/-- R159, R161, R158 (SHIFT_MODE D13, write order D11): the shifts complete; the source is V[x], or V[y] when SHIFT_MODE is copy_vy; V[x] is
the source divided by 2 or doubled modulo 256, and VF is the bit shifted out, unless x is 15. -/
def Obligations.ShiftsSetShiftedOutBit : Prop :=
  ∀ (x y : Reg) (s : State) (b : Byte),
    (s.config.shiftMode = .inPlace → b = s.reg x) → (s.config.shiftMode = .copyVy → b = s.reg y) →
    (Completes (exec (.shr x y) s) fun t =>
      (t.reg x).toNat = b.toNat / 2 ∧ (x ≠ 15 → (t.reg 15).toNat = b.toNat % 2) ∧
      OnlyChanges s t (· ∈ [.reg x, .reg 15])) ∧
    (Completes (exec (.shl x y) s) fun t =>
      (t.reg x).toNat = b.toNat * 2 % 256 ∧ (x ≠ 15 → (t.reg 15).toNat = b.toNat / 128) ∧
      OnlyChanges s t (· ∈ [.reg x, .reg 15]))

/-- R162 (D23): RND completes with the drawn byte under the mask, whatever the byte is: no bit is set that `nn` has clear, and each bit `nn`
has set is the drawn byte's. The draw index is the model's own (log 6). -/
def Obligations.RandomByteUnderMask : Prop :=
  ∀ (x : Reg) (nn : Byte) (s : State), Completes (exec (.rnd x nn) s) fun t =>
    (∀ k < 8, (t.reg x).getLsbD k = (nn.getLsbD k && (Config.freeRnd s.rndIndex).getLsbD k)) ∧
    t.rndIndex = s.rndIndex + 1 ∧ OnlyChanges s t (· ∈ [.reg x, .rndIndex])

/-- R120's "Effect of the whole step": NOP completes and changes nothing; the whole step advances pc by 2, ticks the timers and reports no
redraw, and changes nothing else but the sound output and the load port's flag (the model's own, log 17). Which words are NOP is the
statement NopWordClasses. -/
def Obligations.NopIsAFullStep : Prop :=
  ∀ s : State,
    (Completes (exec .nop s) fun t => OnlyChanges s t fun _ => False) ∧
    (s.status = .running → s.pc.toNat + 1 ≤ 4095 → decode s.fetchWord = .nop → Completes (step s) fun t =>
      t.pc = s.pc + 2 ∧ t.dt.toNat = s.dt.toNat - 1 ∧ t.st.toNat = s.st.toNat - 1 ∧ t.redraw = false ∧
      OnlyChanges s t (· ∈ [.pc, .dt, .st, .redraw, .sound, .loadOpen]))

/-! ### Display (44_display.md) -/

/-- R170 (redraw hint D17): CLS completes in every state with every cell off and the redraw output 1, and changes nothing else. -/
def Obligations.ClearTurnsEveryCellOff : Prop :=
  ∀ s : State, Completes (exec .cls s) fun t =>
    (∀ px py, t.display.pixel px py = false) ∧ t.redraw = true ∧
    OnlyChanges s t fun p => p = .redraw ∨ ∃ px py, p = .pixel px py

/-- R171 (VF 0 without collision and latching D16; range check D9; redraw D17): in range, DRW completes: every cell is XORed with the sprite bit
that lands on it, VF is 1 exactly when a sprite bit of 1 landed on a cell that was on and 0 otherwise, and nothing changes but VF, the
redraw output and cells of the clipped rectangle. -/
def Obligations.DrawXorsSpriteAndReportsCollision : Prop :=
  ∀ (x y : Reg) (n : Nat) (s : State), (n = 0 ∨ s.iReg.toNat + n ≤ 4096) →
    Completes (exec (.drw x y n) s) fun t =>
      (∀ px py, t.display.pixel px py = (s.display.pixel px py ^^ s.sprite x y n px py)) ∧
      ((∃ px py, s.sprite x y n px py = true ∧ s.display.pixel px py = true) → t.reg 15 = 1) ∧
      ((¬ ∃ px py, s.sprite x y n px py = true ∧ s.display.pixel px py = true) → t.reg 15 = 0) ∧
      t.redraw = true ∧
      OnlyChanges s t fun p => p = .reg 15 ∨ p = .redraw ∨ ∃ px py, p = .pixel px py ∧
        (s.reg x).toNat % 64 ≤ px ∧ px ≤ min ((s.reg x).toNat % 64 + 7) 63 ∧
        (s.reg y).toNat % 32 ≤ py ∧ py ≤ min ((s.reg y).toNat % 32 + n - 1) 31

/-- R172's first two laws (the spec's own derivation; E5): a second draw of the same sprite at the same place completes and restores the
buffer. It reports a collision exactly when a sprite bit of 1 lies on a cell that was off before the first draw; R172 leaves out that the
cell was off, R171 does not (log 26). On a clear buffer this is every visible sprite bit of 1. -/
def Obligations.DrawTwiceRestores : Prop :=
  ∀ (x y : Reg) (n : Nat) (s t : State), exec (.drw x y n) s = .next t →
    (t.reg x).toNat % 64 = (s.reg x).toNat % 64 → (t.reg y).toNat % 32 = (s.reg y).toNat % 32 →
    Completes (exec (.drw x y n) t) fun u =>
      (∀ px py, u.display.pixel px py = s.display.pixel px py) ∧
      ((∃ px py, s.sprite x y n px py = true ∧ s.display.pixel px py = false) → u.reg 15 = 1) ∧
      ((¬ ∃ px py, s.sprite x y n px py = true ∧ s.display.pixel px py = false) → u.reg 15 = 0)

/-- R172 (the spec's own derivation; E4): after CLS one draw leaves exactly the sprite's visible bits on, and VF is 0. -/
def Obligations.DrawAfterClearIsTheSprite : Prop :=
  ∀ (x y : Reg) (n : Nat) (s t : State), exec .cls s = .next t → (n = 0 ∨ s.iReg.toNat + n ≤ 4096) →
    Completes (exec (.drw x y n) t) fun u =>
      (∀ px py, u.display.pixel px py = s.sprite x y n px py) ∧ u.reg 15 = 0

/-! ### Timers (45_timers_keys.md, 60_exceptions.md) -/

/-- R180, R181, R182: Fx07 reads DT before the step's tick, Fx15 and Fx18 write the timers, and the tick of the same step counts the new value
down. -/
def Obligations.TimerTransfers : Prop :=
  ∀ (x : Reg) (s : State),
    (Completes (exec (.ldFromDt x) s) fun t =>
      t.reg x = s.dt ∧ t.endStep.reg x = s.dt ∧ t.endStep.dt.toNat = s.dt.toNat - 1 ∧ OnlyChanges s t (· ∈ [.reg x])) ∧
    (Completes (exec (.ldDt x) s) fun t =>
      t.dt = s.reg x ∧ t.endStep.dt.toNat = (s.reg x).toNat - 1 ∧ OnlyChanges s t (· ∈ [.dt])) ∧
    (Completes (exec (.ldSt x) s) fun t =>
      t.st = s.reg x ∧ t.endStep.st.toNat = (s.reg x).toNat - 1 ∧
      (t.endStep.sound = true ↔ (s.reg x).toNat ≥ 2) ∧ OnlyChanges s t (· ∈ [.st]))

/-- R212 (E7): over any number of completed steps none of which executes Fx15 the delay timer has counted down once per step to zero and stays
there; the sound timer likewise without Fx18. -/
def Obligations.TimersCountDownToZero : Prop :=
  ∀ (s t : State) (count : Nat), runSteps count s = .next t →
    ((∀ j < count, ∀ (u : State) (x : Reg), runSteps j s = .next u → decode u.fetchWord ≠ .ldDt x) →
      t.dt.toNat = s.dt.toNat - count) ∧
    ((∀ j < count, ∀ (u : State) (x : Reg), runSteps j s = .next u → decode u.fetchWord ≠ .ldSt x) →
      t.st.toNat = s.st.toNat - count)

/-! ### Address register and memory (46_index_memory.md) -/

/-- R190, R191, R192 (meanings of Annn and Fx1E D29, VF not written D19, no masking of the digit D20): the three writers of I complete. -/
def Obligations.AddressRegisterWriters : Prop :=
  ∀ (nnn : Addr12) (x : Reg) (s : State),
    (Completes (exec (.ldI nnn) s) fun t => t.iReg.toNat = nnn.toNat ∧ OnlyChanges s t (· ∈ [.iReg])) ∧
    (Completes (exec (.addI x) s) fun t =>
      t.iReg.toNat = (s.iReg.toNat + (s.reg x).toNat) % 65536 ∧ OnlyChanges s t (· ∈ [.iReg])) ∧
    (s.config.legal → Completes (exec (.ldF x) s) fun t =>
      t.iReg.toNat = s.config.fontBase + 5 * (s.reg x).toNat ∧ OnlyChanges s t (· ∈ [.iReg]))

/-- R193 (range check D9): in range, BCD completes with the hundreds, tens and ones of V[x] at I, I + 1 and I + 2, and changes no other byte and
nothing else. -/
def Obligations.BcdStoresDigits : Prop :=
  ∀ (x : Reg) (s : State), Memory.wf s.config.fontBase s.mem = true → s.iReg.toNat + 2 ≤ 4095 →
    Completes (exec (.bcd x) s) fun t =>
      (t.byte s.iReg.toNat).toNat = (s.reg x).toNat / 100 ∧
      (t.byte (s.iReg.toNat + 1)).toNat = (s.reg x).toNat / 10 % 10 ∧
      (t.byte (s.iReg.toNat + 2)).toNat = (s.reg x).toNat % 10 ∧
      OnlyChanges s t fun p => ∃ k, k ≤ 2 ∧ p = .byte (s.iReg.toNat + k)

/-- R194 (range check D9; MEM_I_MODE D15): in range, STORE completes with V0 to Vx at I to I + x, and changes no other byte and nothing else but I,
which is advanced by x + 1 exactly when MEM_I_MODE is increment. -/
def Obligations.StoreCopiesRegistersToMemory : Prop :=
  ∀ (x : Reg) (s : State), Memory.wf s.config.fontBase s.mem = true → s.iReg.toNat + x.val ≤ 4095 →
    Completes (exec (.store x) s) fun t =>
      (∀ r : Reg, r ≤ x → t.byte (s.iReg.toNat + r.val) = s.reg r) ∧
      (s.config.memIMode = .unchanged → t.iReg = s.iReg) ∧
      (s.config.memIMode = .increment → t.iReg.toNat = (s.iReg.toNat + x.val + 1) % 65536) ∧
      OnlyChanges s t fun p => p = .iReg ∨ ∃ k, k ≤ x.val ∧ p = .byte (s.iReg.toNat + k)

/-- R195 (range check D9; MEM_I_MODE D15): in range, LOAD completes with the bytes at I to I + x in V0 to Vx, the registers above x and all of memory
unchanged, and I as for STORE. -/
def Obligations.LoadCopiesMemoryToRegisters : Prop :=
  ∀ (x : Reg) (s : State), s.iReg.toNat + x.val ≤ 4095 →
    Completes (exec (.load x) s) fun t =>
      (∀ r : Reg, r ≤ x → t.reg r = s.byte (s.iReg.toNat + r.val)) ∧
      (s.config.memIMode = .unchanged → t.iReg = s.iReg) ∧
      (s.config.memIMode = .increment → t.iReg.toNat = (s.iReg.toNat + x.val + 1) % 65536) ∧
      OnlyChanges s t fun p => p = .iReg ∨ ∃ r : Reg, r ≤ x ∧ p = .reg r

/-- R64 (the spec's own derivation): a store over the next instruction's two bytes is what the next step fetches. -/
def Obligations.StoreIsSeenByNextFetch : Prop :=
  ∀ (s t : State) (x : Reg), step s = .next t → decode s.fetchWord = .store x → 1 ≤ x.val → s.iReg = s.pc + 2 →
    Memory.wf s.config.fontBase s.mem = true → t.fetchWord = wordOfBytes (s.reg 0) (s.reg 1)

/-! ### Faults (60_exceptions.md) -/

/-- R200, R115, R207 (D8 to D10, D28): the execute phase raises exactly the fault of R200's table, with the information a diagnostic carries
(the first address above 4095 deduced, log 9), and completes in every other case; no instruction is refused. -/
def Obligations.ExecFaultsExactlyPerTable : Prop :=
  ∀ (i : Instr) (s : State),
    (∀ r, faultOf i s = some r → exec i s = .fault r) ∧ (faultOf i s = none → ∃ t, exec i s = .next t)

/-- R111, R112, R115, R200: a step completes exactly when the machine is Running, both bytes of the fetch lie in memory, and the decoded
instruction raises no fault; no step is refused. -/
def Obligations.StepCompletesExactlyWhenSafe : Prop :=
  ∀ s : State, ((∃ t, step s = .next t) ↔ SafeStep s) ∧ ∀ r, step s ≠ .refused r

/-! ### Reset and ports (70_reset_and_hazards.md, 60_exceptions.md) -/

/-- R230, R39 (V, I, DT, ST, the stack and the keys zero: D7, log 4; the font D6, log 5): what reset leaves, for every legal choice of the
parameters. The 80 font bytes are written out from R32's table, a glyph after the other, top row first. -/
def Obligations.ResetState : Prop :=
  ∀ c : Config, c.legal →
    (State.resetWith c).config = c ∧ (State.resetWith c).pc = 0x200 ∧ (State.resetWith c).status = .running ∧
    (∀ k, k < 80 → (State.resetWith c).byte (c.fontBase + k) = fontTable.getD k 0) ∧
    fontTable.length = 80 ∧ fontTable =
     ([0xF0, 0x90, 0x90, 0x90, 0xF0, 0x20, 0x60, 0x20, 0x20, 0x70] ++
      [0xF0, 0x10, 0xF0, 0x80, 0xF0, 0xF0, 0x10, 0xF0, 0x10, 0xF0] ++
      [0x90, 0x90, 0xF0, 0x10, 0x10, 0xF0, 0x80, 0xF0, 0x10, 0xF0] ++
      [0xF0, 0x80, 0xF0, 0x90, 0xF0, 0xF0, 0x10, 0x20, 0x40, 0x40] ++
      [0xF0, 0x90, 0xF0, 0x90, 0xF0, 0xF0, 0x90, 0xF0, 0x10, 0xF0] ++
      [0xF0, 0x90, 0xF0, 0x90, 0x90, 0xE0, 0x90, 0xE0, 0x90, 0xE0] ++
      [0xF0, 0x80, 0x80, 0x80, 0xF0, 0xE0, 0x90, 0x90, 0x90, 0xE0] ++
      [0xF0, 0x80, 0xF0, 0x80, 0xF0, 0xF0, 0x80, 0xF0, 0x80, 0x80]) ∧
    (∀ a, a < c.fontBase ∨ c.fontBase + 80 ≤ a → (State.resetWith c).byte a = 0) ∧
    (∀ px py, (State.resetWith c).display.pixel px py = false) ∧
    (∀ r, (State.resetWith c).reg r = 0) ∧ (State.resetWith c).iReg = 0 ∧ (State.resetWith c).dt = 0 ∧
    (State.resetWith c).st = 0 ∧ (State.resetWith c).stack = [] ∧ ∀ k, (State.resetWith c).key k = false

/-- R60, R222 (whole refusal and one load: D21, log 17): while the port is open an image of at most 3584 bytes is copied verbatim from 0x200 on and
nothing else changes but that the port closes; a longer one is refused; a closed port refuses every image. -/
def Obligations.ProgramLoadPort : Prop :=
  ∀ (img : List Byte) (s : State), Memory.wf s.config.fontBase s.mem = true →
    (s.loadOpen = true → img.length ≤ 3584 → ∃ t, loadProgram img s = .ok t ∧ t.loadOpen = false ∧
      (∀ (k : Nat) (h : k < img.length), t.byte (0x200 + k) = img[k]) ∧
      OnlyChanges s t fun p => p = .loadOpen ∨ ∃ k, k < img.length ∧ p = .byte (0x200 + k)) ∧
    (s.loadOpen = true → img.length > 3584 → loadProgram img s = .error .loadTooLarge) ∧
    (s.loadOpen = false → loadProgram img s = .error .loadClosed)

/-- R217, R218: a key write with an index of 0 to 15 sets that key and changes nothing else, and is refused above 15; a display read inside the
grid gives the cell, and is refused outside it. -/
def Obligations.KeyAndDisplayPorts : Prop :=
  ∀ s : State,
    (∀ (k : Fin 16) (b : Bool), ∃ t, setKey k.val b s = .ok t ∧ t.key k = b ∧ OnlyChanges s t (· ∈ [.key k])) ∧
    (∀ (k : Nat) (b : Bool), k > 15 → setKey k b s = .error .noSuchKey) ∧
    (∀ px py : Nat, px ≤ 63 → py ≤ 31 → getPixel px py s = .ok (s.display.pixel px py)) ∧
    (∀ px py : Nat, px > 63 ∨ py > 31 → getPixel px py s = .error .noSuchCell)

/-! ### Invariant and runs -/

/-- The invariant holds right after reset, for every legal choice of the parameters, and the defaults are legal. -/
def Obligations.ResetMeetsInvariant : Prop :=
  Config.default.legal ∧ ∀ c : Config, c.legal → (State.resetWith c).Inv

/-- R24, R132, R131, R8: from every state that meets the invariant a completed step gives a state that meets it: pc stays in 0 to 0x10FE, every
stack entry is at most 4096, the stack never exceeds STACK_LIMIT, memory keeps its canonical form (log 10) and the parameters stay legal. -/
def Obligations.StepKeepsInvariant : Prop :=
  ∀ s t : State, s.Inv → step s = .next t → t.Inv

/-- R60, R217: a program load and a key write keep the invariant. -/
def Obligations.PortsKeepInvariant : Prop :=
  ∀ s t : State, s.Inv →
    (∀ img, loadProgram img s = .ok t → t.Inv) ∧ (∀ k b, setKey k b s = .ok t → t.Inv)

/-- R89, R222, C10: a machine that runs off into zeroed memory executes a NOP for every word up to the top, whatever the state, and then faults at
fetch with pc at 4096. -/
def Obligations.ZeroedMemoryRunsToTheTop : Prop :=
  ∀ (s : State) (count : Nat), s.status = .running → s.pc.toNat + 2 * count = 4096 →
    (∀ a, s.pc.toNat ≤ a → a ≤ 4095 → s.byte a = 0) →
    ∃ t, runSteps count s = .next t ∧ t.pc.toNat = 4096 ∧ t.dt.toNat = s.dt.toNat - count ∧
      t.st.toNat = s.st.toNat - count ∧ OnlyChanges s t (· ∈ [.pc, .dt, .st, .redraw, .sound, .loadOpen]) ∧
      step t = .fault (.memRange 4096 4096)

/-- R121 (the spec's own derivation): a jump to itself is an endless run of steps, each leaving all state but the timers (and the step's outputs and
the load port's flag) unchanged. -/
def Obligations.JumpToSelfRunsForever : Prop :=
  ∀ (s : State) (nnn : Addr12) (count : Nat), s.status = .running → s.pc.toNat + 1 ≤ 4095 →
    decode s.fetchWord = .jp nnn → nnn.toNat = s.pc.toNat →
    ∃ t, runSteps count s = .next t ∧ t.dt.toNat = s.dt.toNat - count ∧
      t.st.toNat = s.st.toNat - count ∧ OnlyChanges s t (· ∈ [.dt, .st, .redraw, .sound, .loadOpen])

/-- R121: the end of a run. A machine at a jump to itself is at its end, a faulted one never is (R205), and from an end any number of steps
complete, each leaving the machine at its end and all state but the timers (and the step's outputs and the load port's flag) unchanged. The
predicate is the one R121 gives as an example; taking it is the model's choice (log 27). -/
def Obligations.EndOfRunIsStable : Prop :=
  (∀ (s : State) (nnn : Addr12), s.status = .running → s.pc.toNat + 1 ≤ 4095 → decode s.fetchWord = .jp nnn →
    (s.endOfRun = true ↔ nnn.toNat = s.pc.toNat)) ∧
  (∀ (s : State) (r : Fault), s.status = .faulted r → s.endOfRun = false) ∧
  (∀ (s : State) (count : Nat), s.endOfRun = true → ∃ t, runSteps count s = .next t ∧ t.endOfRun = true ∧
    OnlyChanges s t (· ∈ [.dt, .st, .redraw, .sound, .loadOpen]))
end

