-- ==== Sys2Proof/Laws/State.lean ====
section
/-! SUPPORT. One lemma per field per update of State, true by rfl, so that no proof unfolds a record update; and the accessors
`reg`, `byte`, `key` after each update. -/

namespace Sys2Proof.Machine

/-- A register reads as what was last written to it, and every other register as before. -/
@[simp] theorem State.setReg_reg (s : State) (r q : Reg) (b : Byte) :
    (s.setReg r b).reg q = if q = r then b else s.reg q := by
  have h : r.val = q.val ↔ q = r := by rw [Fin.ext_iff, eq_comm]
  simp [State.setReg, State.reg, Vector.getElem_set, h]

@[simp] theorem State.setReg_iReg (s : State) (r : Reg) (b : Byte) : (s.setReg r b).iReg = s.iReg := rfl
@[simp] theorem State.setReg_pc (s : State) (r : Reg) (b : Byte) : (s.setReg r b).pc = s.pc := rfl
@[simp] theorem State.setReg_dt (s : State) (r : Reg) (b : Byte) : (s.setReg r b).dt = s.dt := rfl
@[simp] theorem State.setReg_st (s : State) (r : Reg) (b : Byte) : (s.setReg r b).st = s.st := rfl
@[simp] theorem State.setReg_stack (s : State) (r : Reg) (b : Byte) : (s.setReg r b).stack = s.stack := rfl
@[simp] theorem State.setReg_mem (s : State) (r : Reg) (b : Byte) : (s.setReg r b).mem = s.mem := rfl
@[simp] theorem State.setReg_display (s : State) (r : Reg) (b : Byte) : (s.setReg r b).display = s.display := rfl
@[simp] theorem State.setReg_keys (s : State) (r : Reg) (b : Byte) : (s.setReg r b).keys = s.keys := rfl
@[simp] theorem State.setReg_status (s : State) (r : Reg) (b : Byte) : (s.setReg r b).status = s.status := rfl
@[simp] theorem State.setReg_config (s : State) (r : Reg) (b : Byte) : (s.setReg r b).config = s.config := rfl
@[simp] theorem State.setReg_redraw (s : State) (r : Reg) (b : Byte) : (s.setReg r b).redraw = s.redraw := rfl
@[simp] theorem State.setReg_sound (s : State) (r : Reg) (b : Byte) : (s.setReg r b).sound = s.sound := rfl
@[simp] theorem State.setReg_loadOpen (s : State) (r : Reg) (b : Byte) : (s.setReg r b).loadOpen = s.loadOpen := rfl
@[simp] theorem State.setReg_rndIndex (s : State) (r : Reg) (b : Byte) : (s.setReg r b).rndIndex = s.rndIndex := rfl
@[simp] theorem State.setReg_byte (s : State) (r : Reg) (b : Byte) (x : Nat) : (s.setReg r b).byte x = s.byte x := rfl
@[simp] theorem State.setReg_key (s : State) (r : Reg) (b : Byte) (k : Fin 16) : (s.setReg r b).key k = s.key k := rfl

@[simp] theorem State.setPc_iReg (s : State) (w : Word) : (s.setPc w).iReg = s.iReg := rfl
@[simp] theorem State.setPc_pc (s : State) (w : Word) : (s.setPc w).pc = w := rfl
@[simp] theorem State.setPc_dt (s : State) (w : Word) : (s.setPc w).dt = s.dt := rfl
@[simp] theorem State.setPc_st (s : State) (w : Word) : (s.setPc w).st = s.st := rfl
@[simp] theorem State.setPc_stack (s : State) (w : Word) : (s.setPc w).stack = s.stack := rfl
@[simp] theorem State.setPc_mem (s : State) (w : Word) : (s.setPc w).mem = s.mem := rfl
@[simp] theorem State.setPc_display (s : State) (w : Word) : (s.setPc w).display = s.display := rfl
@[simp] theorem State.setPc_keys (s : State) (w : Word) : (s.setPc w).keys = s.keys := rfl
@[simp] theorem State.setPc_status (s : State) (w : Word) : (s.setPc w).status = s.status := rfl
@[simp] theorem State.setPc_config (s : State) (w : Word) : (s.setPc w).config = s.config := rfl
@[simp] theorem State.setPc_redraw (s : State) (w : Word) : (s.setPc w).redraw = s.redraw := rfl
@[simp] theorem State.setPc_sound (s : State) (w : Word) : (s.setPc w).sound = s.sound := rfl
@[simp] theorem State.setPc_loadOpen (s : State) (w : Word) : (s.setPc w).loadOpen = s.loadOpen := rfl
@[simp] theorem State.setPc_rndIndex (s : State) (w : Word) : (s.setPc w).rndIndex = s.rndIndex := rfl
@[simp] theorem State.setPc_v (s : State) (w : Word) : (s.setPc w).v = s.v := rfl
@[simp] theorem State.setPc_reg (s : State) (w : Word) (q : Reg) : (s.setPc w).reg q = s.reg q := rfl
@[simp] theorem State.setPc_byte (s : State) (w : Word) (x : Nat) : (s.setPc w).byte x = s.byte x := rfl
@[simp] theorem State.setPc_key (s : State) (w : Word) (k : Fin 16) : (s.setPc w).key k = s.key k := rfl

@[simp] theorem State.setI_iReg (s : State) (w : Word) : (s.setI w).iReg = w := rfl
@[simp] theorem State.setI_pc (s : State) (w : Word) : (s.setI w).pc = s.pc := rfl
@[simp] theorem State.setI_dt (s : State) (w : Word) : (s.setI w).dt = s.dt := rfl
@[simp] theorem State.setI_st (s : State) (w : Word) : (s.setI w).st = s.st := rfl
@[simp] theorem State.setI_stack (s : State) (w : Word) : (s.setI w).stack = s.stack := rfl
@[simp] theorem State.setI_mem (s : State) (w : Word) : (s.setI w).mem = s.mem := rfl
@[simp] theorem State.setI_display (s : State) (w : Word) : (s.setI w).display = s.display := rfl
@[simp] theorem State.setI_keys (s : State) (w : Word) : (s.setI w).keys = s.keys := rfl
@[simp] theorem State.setI_status (s : State) (w : Word) : (s.setI w).status = s.status := rfl
@[simp] theorem State.setI_config (s : State) (w : Word) : (s.setI w).config = s.config := rfl
@[simp] theorem State.setI_redraw (s : State) (w : Word) : (s.setI w).redraw = s.redraw := rfl
@[simp] theorem State.setI_sound (s : State) (w : Word) : (s.setI w).sound = s.sound := rfl
@[simp] theorem State.setI_loadOpen (s : State) (w : Word) : (s.setI w).loadOpen = s.loadOpen := rfl
@[simp] theorem State.setI_rndIndex (s : State) (w : Word) : (s.setI w).rndIndex = s.rndIndex := rfl
@[simp] theorem State.setI_v (s : State) (w : Word) : (s.setI w).v = s.v := rfl
@[simp] theorem State.setI_reg (s : State) (w : Word) (q : Reg) : (s.setI w).reg q = s.reg q := rfl
@[simp] theorem State.setI_byte (s : State) (w : Word) (x : Nat) : (s.setI w).byte x = s.byte x := rfl
@[simp] theorem State.setI_key (s : State) (w : Word) (k : Fin 16) : (s.setI w).key k = s.key k := rfl

@[simp] theorem State.setDt_iReg (s : State) (b : Byte) : (s.setDt b).iReg = s.iReg := rfl
@[simp] theorem State.setDt_pc (s : State) (b : Byte) : (s.setDt b).pc = s.pc := rfl
@[simp] theorem State.setDt_dt (s : State) (b : Byte) : (s.setDt b).dt = b := rfl
@[simp] theorem State.setDt_st (s : State) (b : Byte) : (s.setDt b).st = s.st := rfl
@[simp] theorem State.setDt_stack (s : State) (b : Byte) : (s.setDt b).stack = s.stack := rfl
@[simp] theorem State.setDt_mem (s : State) (b : Byte) : (s.setDt b).mem = s.mem := rfl
@[simp] theorem State.setDt_display (s : State) (b : Byte) : (s.setDt b).display = s.display := rfl
@[simp] theorem State.setDt_keys (s : State) (b : Byte) : (s.setDt b).keys = s.keys := rfl
@[simp] theorem State.setDt_status (s : State) (b : Byte) : (s.setDt b).status = s.status := rfl
@[simp] theorem State.setDt_config (s : State) (b : Byte) : (s.setDt b).config = s.config := rfl
@[simp] theorem State.setDt_redraw (s : State) (b : Byte) : (s.setDt b).redraw = s.redraw := rfl
@[simp] theorem State.setDt_sound (s : State) (b : Byte) : (s.setDt b).sound = s.sound := rfl
@[simp] theorem State.setDt_loadOpen (s : State) (b : Byte) : (s.setDt b).loadOpen = s.loadOpen := rfl
@[simp] theorem State.setDt_rndIndex (s : State) (b : Byte) : (s.setDt b).rndIndex = s.rndIndex := rfl
@[simp] theorem State.setDt_v (s : State) (b : Byte) : (s.setDt b).v = s.v := rfl
@[simp] theorem State.setDt_reg (s : State) (b : Byte) (q : Reg) : (s.setDt b).reg q = s.reg q := rfl
@[simp] theorem State.setDt_byte (s : State) (b : Byte) (x : Nat) : (s.setDt b).byte x = s.byte x := rfl
@[simp] theorem State.setDt_key (s : State) (b : Byte) (k : Fin 16) : (s.setDt b).key k = s.key k := rfl

@[simp] theorem State.setSt_iReg (s : State) (b : Byte) : (s.setSt b).iReg = s.iReg := rfl
@[simp] theorem State.setSt_pc (s : State) (b : Byte) : (s.setSt b).pc = s.pc := rfl
@[simp] theorem State.setSt_dt (s : State) (b : Byte) : (s.setSt b).dt = s.dt := rfl
@[simp] theorem State.setSt_st (s : State) (b : Byte) : (s.setSt b).st = b := rfl
@[simp] theorem State.setSt_stack (s : State) (b : Byte) : (s.setSt b).stack = s.stack := rfl
@[simp] theorem State.setSt_mem (s : State) (b : Byte) : (s.setSt b).mem = s.mem := rfl
@[simp] theorem State.setSt_display (s : State) (b : Byte) : (s.setSt b).display = s.display := rfl
@[simp] theorem State.setSt_keys (s : State) (b : Byte) : (s.setSt b).keys = s.keys := rfl
@[simp] theorem State.setSt_status (s : State) (b : Byte) : (s.setSt b).status = s.status := rfl
@[simp] theorem State.setSt_config (s : State) (b : Byte) : (s.setSt b).config = s.config := rfl
@[simp] theorem State.setSt_redraw (s : State) (b : Byte) : (s.setSt b).redraw = s.redraw := rfl
@[simp] theorem State.setSt_sound (s : State) (b : Byte) : (s.setSt b).sound = s.sound := rfl
@[simp] theorem State.setSt_loadOpen (s : State) (b : Byte) : (s.setSt b).loadOpen = s.loadOpen := rfl
@[simp] theorem State.setSt_rndIndex (s : State) (b : Byte) : (s.setSt b).rndIndex = s.rndIndex := rfl
@[simp] theorem State.setSt_v (s : State) (b : Byte) : (s.setSt b).v = s.v := rfl
@[simp] theorem State.setSt_reg (s : State) (b : Byte) (q : Reg) : (s.setSt b).reg q = s.reg q := rfl
@[simp] theorem State.setSt_byte (s : State) (b : Byte) (x : Nat) : (s.setSt b).byte x = s.byte x := rfl
@[simp] theorem State.setSt_key (s : State) (b : Byte) (k : Fin 16) : (s.setSt b).key k = s.key k := rfl

@[simp] theorem State.storeBytes_iReg (s : State) (a : Nat) (bs : List Byte) : (s.storeBytes a bs).iReg = s.iReg := rfl
@[simp] theorem State.storeBytes_pc (s : State) (a : Nat) (bs : List Byte) : (s.storeBytes a bs).pc = s.pc := rfl
@[simp] theorem State.storeBytes_dt (s : State) (a : Nat) (bs : List Byte) : (s.storeBytes a bs).dt = s.dt := rfl
@[simp] theorem State.storeBytes_st (s : State) (a : Nat) (bs : List Byte) : (s.storeBytes a bs).st = s.st := rfl
@[simp] theorem State.storeBytes_stack (s : State) (a : Nat) (bs : List Byte) : (s.storeBytes a bs).stack = s.stack := rfl
@[simp] theorem State.storeBytes_mem (s : State) (a : Nat) (bs : List Byte) : (s.storeBytes a bs).mem = Memory.writeList s.config.fontBase s.mem a bs := rfl
@[simp] theorem State.storeBytes_display (s : State) (a : Nat) (bs : List Byte) : (s.storeBytes a bs).display = s.display := rfl
@[simp] theorem State.storeBytes_keys (s : State) (a : Nat) (bs : List Byte) : (s.storeBytes a bs).keys = s.keys := rfl
@[simp] theorem State.storeBytes_status (s : State) (a : Nat) (bs : List Byte) : (s.storeBytes a bs).status = s.status := rfl
@[simp] theorem State.storeBytes_config (s : State) (a : Nat) (bs : List Byte) : (s.storeBytes a bs).config = s.config := rfl
@[simp] theorem State.storeBytes_redraw (s : State) (a : Nat) (bs : List Byte) : (s.storeBytes a bs).redraw = s.redraw := rfl
@[simp] theorem State.storeBytes_sound (s : State) (a : Nat) (bs : List Byte) : (s.storeBytes a bs).sound = s.sound := rfl
@[simp] theorem State.storeBytes_loadOpen (s : State) (a : Nat) (bs : List Byte) : (s.storeBytes a bs).loadOpen = s.loadOpen := rfl
@[simp] theorem State.storeBytes_rndIndex (s : State) (a : Nat) (bs : List Byte) : (s.storeBytes a bs).rndIndex = s.rndIndex := rfl
@[simp] theorem State.storeBytes_v (s : State) (a : Nat) (bs : List Byte) : (s.storeBytes a bs).v = s.v := rfl
@[simp] theorem State.storeBytes_reg (s : State) (a : Nat) (bs : List Byte) (q : Reg) : (s.storeBytes a bs).reg q = s.reg q := rfl
@[simp] theorem State.storeBytes_key (s : State) (a : Nat) (bs : List Byte) (k : Fin 16) : (s.storeBytes a bs).key k = s.key k := rfl

@[simp] theorem State.push_iReg (s : State) (w : Word) : (s.push w).iReg = s.iReg := rfl
@[simp] theorem State.push_pc (s : State) (w : Word) : (s.push w).pc = s.pc := rfl
@[simp] theorem State.push_dt (s : State) (w : Word) : (s.push w).dt = s.dt := rfl
@[simp] theorem State.push_st (s : State) (w : Word) : (s.push w).st = s.st := rfl
@[simp] theorem State.push_stack (s : State) (w : Word) : (s.push w).stack = w :: s.stack := rfl
@[simp] theorem State.push_mem (s : State) (w : Word) : (s.push w).mem = s.mem := rfl
@[simp] theorem State.push_display (s : State) (w : Word) : (s.push w).display = s.display := rfl
@[simp] theorem State.push_keys (s : State) (w : Word) : (s.push w).keys = s.keys := rfl
@[simp] theorem State.push_status (s : State) (w : Word) : (s.push w).status = s.status := rfl
@[simp] theorem State.push_config (s : State) (w : Word) : (s.push w).config = s.config := rfl
@[simp] theorem State.push_redraw (s : State) (w : Word) : (s.push w).redraw = s.redraw := rfl
@[simp] theorem State.push_sound (s : State) (w : Word) : (s.push w).sound = s.sound := rfl
@[simp] theorem State.push_loadOpen (s : State) (w : Word) : (s.push w).loadOpen = s.loadOpen := rfl
@[simp] theorem State.push_rndIndex (s : State) (w : Word) : (s.push w).rndIndex = s.rndIndex := rfl
@[simp] theorem State.push_v (s : State) (w : Word) : (s.push w).v = s.v := rfl
@[simp] theorem State.push_reg (s : State) (w : Word) (q : Reg) : (s.push w).reg q = s.reg q := rfl
@[simp] theorem State.push_byte (s : State) (w : Word) (x : Nat) : (s.push w).byte x = s.byte x := rfl
@[simp] theorem State.push_key (s : State) (w : Word) (k : Fin 16) : (s.push w).key k = s.key k := rfl

@[simp] theorem State.consumeRnd_iReg (s : State) : (s.consumeRnd).iReg = s.iReg := rfl
@[simp] theorem State.consumeRnd_pc (s : State) : (s.consumeRnd).pc = s.pc := rfl
@[simp] theorem State.consumeRnd_dt (s : State) : (s.consumeRnd).dt = s.dt := rfl
@[simp] theorem State.consumeRnd_st (s : State) : (s.consumeRnd).st = s.st := rfl
@[simp] theorem State.consumeRnd_stack (s : State) : (s.consumeRnd).stack = s.stack := rfl
@[simp] theorem State.consumeRnd_mem (s : State) : (s.consumeRnd).mem = s.mem := rfl
@[simp] theorem State.consumeRnd_display (s : State) : (s.consumeRnd).display = s.display := rfl
@[simp] theorem State.consumeRnd_keys (s : State) : (s.consumeRnd).keys = s.keys := rfl
@[simp] theorem State.consumeRnd_status (s : State) : (s.consumeRnd).status = s.status := rfl
@[simp] theorem State.consumeRnd_config (s : State) : (s.consumeRnd).config = s.config := rfl
@[simp] theorem State.consumeRnd_redraw (s : State) : (s.consumeRnd).redraw = s.redraw := rfl
@[simp] theorem State.consumeRnd_sound (s : State) : (s.consumeRnd).sound = s.sound := rfl
@[simp] theorem State.consumeRnd_loadOpen (s : State) : (s.consumeRnd).loadOpen = s.loadOpen := rfl
@[simp] theorem State.consumeRnd_rndIndex (s : State) : (s.consumeRnd).rndIndex = s.rndIndex + 1 := rfl
@[simp] theorem State.consumeRnd_v (s : State) : (s.consumeRnd).v = s.v := rfl
@[simp] theorem State.consumeRnd_reg (s : State) (q : Reg) : (s.consumeRnd).reg q = s.reg q := rfl
@[simp] theorem State.consumeRnd_byte (s : State) (x : Nat) : (s.consumeRnd).byte x = s.byte x := rfl
@[simp] theorem State.consumeRnd_key (s : State) (k : Fin 16) : (s.consumeRnd).key k = s.key k := rfl

@[simp] theorem State.setDisplay_iReg (s : State) (d : Display) : (s.setDisplay d).iReg = s.iReg := rfl
@[simp] theorem State.setDisplay_pc (s : State) (d : Display) : (s.setDisplay d).pc = s.pc := rfl
@[simp] theorem State.setDisplay_dt (s : State) (d : Display) : (s.setDisplay d).dt = s.dt := rfl
@[simp] theorem State.setDisplay_st (s : State) (d : Display) : (s.setDisplay d).st = s.st := rfl
@[simp] theorem State.setDisplay_stack (s : State) (d : Display) : (s.setDisplay d).stack = s.stack := rfl
@[simp] theorem State.setDisplay_mem (s : State) (d : Display) : (s.setDisplay d).mem = s.mem := rfl
@[simp] theorem State.setDisplay_display (s : State) (d : Display) : (s.setDisplay d).display = d := rfl
@[simp] theorem State.setDisplay_keys (s : State) (d : Display) : (s.setDisplay d).keys = s.keys := rfl
@[simp] theorem State.setDisplay_status (s : State) (d : Display) : (s.setDisplay d).status = s.status := rfl
@[simp] theorem State.setDisplay_config (s : State) (d : Display) : (s.setDisplay d).config = s.config := rfl
@[simp] theorem State.setDisplay_redraw (s : State) (d : Display) : (s.setDisplay d).redraw = true := rfl
@[simp] theorem State.setDisplay_sound (s : State) (d : Display) : (s.setDisplay d).sound = s.sound := rfl
@[simp] theorem State.setDisplay_loadOpen (s : State) (d : Display) : (s.setDisplay d).loadOpen = s.loadOpen := rfl
@[simp] theorem State.setDisplay_rndIndex (s : State) (d : Display) : (s.setDisplay d).rndIndex = s.rndIndex := rfl
@[simp] theorem State.setDisplay_v (s : State) (d : Display) : (s.setDisplay d).v = s.v := rfl
@[simp] theorem State.setDisplay_reg (s : State) (d : Display) (q : Reg) : (s.setDisplay d).reg q = s.reg q := rfl
@[simp] theorem State.setDisplay_byte (s : State) (d : Display) (x : Nat) : (s.setDisplay d).byte x = s.byte x := rfl
@[simp] theorem State.setDisplay_key (s : State) (d : Display) (k : Fin 16) : (s.setDisplay d).key k = s.key k := rfl

@[simp] theorem State.beginExecute_iReg (s : State) : (s.beginExecute).iReg = s.iReg := rfl
@[simp] theorem State.beginExecute_pc (s : State) : (s.beginExecute).pc = s.pc + 2 := rfl
@[simp] theorem State.beginExecute_dt (s : State) : (s.beginExecute).dt = s.dt := rfl
@[simp] theorem State.beginExecute_st (s : State) : (s.beginExecute).st = s.st := rfl
@[simp] theorem State.beginExecute_stack (s : State) : (s.beginExecute).stack = s.stack := rfl
@[simp] theorem State.beginExecute_mem (s : State) : (s.beginExecute).mem = s.mem := rfl
@[simp] theorem State.beginExecute_display (s : State) : (s.beginExecute).display = s.display := rfl
@[simp] theorem State.beginExecute_keys (s : State) : (s.beginExecute).keys = s.keys := rfl
@[simp] theorem State.beginExecute_status (s : State) : (s.beginExecute).status = s.status := rfl
@[simp] theorem State.beginExecute_config (s : State) : (s.beginExecute).config = s.config := rfl
@[simp] theorem State.beginExecute_redraw (s : State) : (s.beginExecute).redraw = false := rfl
@[simp] theorem State.beginExecute_sound (s : State) : (s.beginExecute).sound = s.sound := rfl
@[simp] theorem State.beginExecute_loadOpen (s : State) : (s.beginExecute).loadOpen = false := rfl
@[simp] theorem State.beginExecute_rndIndex (s : State) : (s.beginExecute).rndIndex = s.rndIndex := rfl
@[simp] theorem State.beginExecute_v (s : State) : (s.beginExecute).v = s.v := rfl
@[simp] theorem State.beginExecute_reg (s : State) (q : Reg) : (s.beginExecute).reg q = s.reg q := rfl
@[simp] theorem State.beginExecute_byte (s : State) (x : Nat) : (s.beginExecute).byte x = s.byte x := rfl
@[simp] theorem State.beginExecute_key (s : State) (k : Fin 16) : (s.beginExecute).key k = s.key k := rfl

@[simp] theorem State.endStep_iReg (s : State) : (s.endStep).iReg = s.iReg := rfl
@[simp] theorem State.endStep_pc (s : State) : (s.endStep).pc = s.pc := rfl
@[simp] theorem State.endStep_dt (s : State) : (s.endStep).dt = tickTimer s.dt := rfl
@[simp] theorem State.endStep_st (s : State) : (s.endStep).st = tickTimer s.st := rfl
@[simp] theorem State.endStep_stack (s : State) : (s.endStep).stack = s.stack := rfl
@[simp] theorem State.endStep_mem (s : State) : (s.endStep).mem = s.mem := rfl
@[simp] theorem State.endStep_display (s : State) : (s.endStep).display = s.display := rfl
@[simp] theorem State.endStep_keys (s : State) : (s.endStep).keys = s.keys := rfl
@[simp] theorem State.endStep_status (s : State) : (s.endStep).status = s.status := rfl
@[simp] theorem State.endStep_config (s : State) : (s.endStep).config = s.config := rfl
@[simp] theorem State.endStep_redraw (s : State) : (s.endStep).redraw = s.redraw := rfl
@[simp] theorem State.endStep_sound (s : State) : (s.endStep).sound = decide (tickTimer s.st ≠ 0) := rfl
@[simp] theorem State.endStep_loadOpen (s : State) : (s.endStep).loadOpen = s.loadOpen := rfl
@[simp] theorem State.endStep_rndIndex (s : State) : (s.endStep).rndIndex = s.rndIndex := rfl
@[simp] theorem State.endStep_v (s : State) : (s.endStep).v = s.v := rfl
@[simp] theorem State.endStep_reg (s : State) (q : Reg) : (s.endStep).reg q = s.reg q := rfl
@[simp] theorem State.endStep_byte (s : State) (x : Nat) : (s.endStep).byte x = s.byte x := rfl
@[simp] theorem State.endStep_key (s : State) (k : Fin 16) : (s.endStep).key k = s.key k := rfl

end Sys2Proof.Machine
end

