-- ==== Sys2Proof/Laws/Memory.lean ====
section
/-! SUPPORT. The laws of memory: read after write, what a write leaves alone, and that every memory operation keeps the
canonical form. -/

namespace Sys2Proof.Machine

variable {fb : Nat}

/-- A write leaves every other address alone, whatever the list. -/
theorem Memory.read_write_other (m : Memory) {a c : Nat} (b : Byte) (h : c ≠ a) :
    Memory.read fb (Memory.write fb m a b) c = Memory.read fb m c := by
  induction m with
  | nil =>
    unfold Memory.write
    split <;> simp [Memory.read, h]
  | cons cell rest ih =>
    obtain ⟨k, d⟩ := cell
    unfold Memory.write
    split
    · split <;> simp [Memory.read, h]
    · split
      · rename_i hk
        split <;> simp [Memory.read, ← hk, h]
      · simp [Memory.read, ih]

/-- Below its first possible address a canonical memory reads as the reset contents. -/
theorem Memory.read_of_lt {m : Memory} {lo a : Nat} (hw : Memory.wfFrom fb lo m = true) (h : a < lo) :
    Memory.read fb m a = Memory.unlisted fb a := by
  induction m generalizing lo with
  | nil => rfl
  | cons cell rest ih =>
    obtain ⟨k, d⟩ := cell
    simp only [Memory.wfFrom, Bool.and_eq_true, decide_eq_true_eq] at hw
    have hne : a ≠ k := by omega
    simp [Memory.read, hne, ih hw.2 (by omega)]

/-- The byte written is read back, in a canonical memory. -/
theorem Memory.read_write_same {m : Memory} {lo : Nat} (hw : Memory.wfFrom fb lo m = true) (a : Nat) (b : Byte) :
    Memory.read fb (Memory.write fb m a b) a = b := by
  induction m generalizing lo with
  | nil =>
    unfold Memory.write
    split
    · rename_i h; simp [Memory.read, h]
    · simp [Memory.read]
  | cons cell rest ih =>
    obtain ⟨k, d⟩ := cell
    simp only [Memory.wfFrom, Bool.and_eq_true, decide_eq_true_eq] at hw
    unfold Memory.write
    split
    · split
      · rename_i h1 h2
        have hr := Memory.read_of_lt (a := a) hw.2 (by omega)
        have hne : a ≠ k := by omega
        simp [Memory.read, hne, hr, h2]
      · simp [Memory.read]
    · split
      · rename_i hk
        subst hk
        split
        · rename_i h2
          rw [Memory.read_of_lt hw.2 (by omega), h2]
        · simp [Memory.read]
      · rename_i hk
        simp [Memory.read, hk, ih hw.2]

/-- The canonical form from an address on is one from every lower address on. -/
theorem Memory.wfFrom_mono {m : Memory} {lo hi : Nat} (hw : Memory.wfFrom fb hi m = true) (h : lo ≤ hi) :
    Memory.wfFrom fb lo m = true := by
  cases m with
  | nil => rfl
  | cons cell rest =>
    simp only [Memory.wfFrom, Bool.and_eq_true, decide_eq_true_eq] at hw ⊢
    exact ⟨⟨⟨by omega, hw.1.1.2⟩, hw.1.2⟩, hw.2⟩

/-- A write in range keeps the canonical form. -/
theorem Memory.write_wfFrom {m : Memory} {lo a : Nat} (hw : Memory.wfFrom fb lo m = true) (hlo : lo ≤ a)
    (ha : a < memSize) (b : Byte) : Memory.wfFrom fb lo (Memory.write fb m a b) = true := by
  induction m generalizing lo with
  | nil =>
    unfold Memory.write
    split <;> simp_all [Memory.wfFrom]
  | cons cell rest ih =>
    obtain ⟨k, d⟩ := cell
    have hw' := hw
    simp only [Memory.wfFrom, Bool.and_eq_true, decide_eq_true_eq] at hw
    obtain ⟨⟨⟨h1, h2⟩, h3⟩, h4⟩ := hw
    unfold Memory.write
    split
    · split
      · exact hw'
      · simp only [Memory.wfFrom, Bool.and_eq_true, decide_eq_true_eq]
        exact ⟨⟨⟨hlo, ha⟩, ‹_›⟩, ⟨⟨⟨by omega, h2⟩, h3⟩, h4⟩⟩
    · split
      · rename_i hk
        subst hk
        split
        · exact Memory.wfFrom_mono h4 (by omega)
        · simp only [Memory.wfFrom, Bool.and_eq_true, decide_eq_true_eq]
          exact ⟨⟨⟨hlo, ha⟩, ‹_›⟩, h4⟩
      · simp only [Memory.wfFrom, Bool.and_eq_true, decide_eq_true_eq]
        exact ⟨⟨⟨h1, h2⟩, h3⟩, ih h4 (by omega)⟩

/-- Bytes stored in range keep the canonical form. -/
theorem Memory.writeList_wf {m : Memory} {a : Nat} {bs : List Byte} (hw : Memory.wf fb m = true)
    (ha : a + bs.length ≤ memSize) : Memory.wf fb (Memory.writeList fb m a bs) = true := by
  induction bs generalizing m a with
  | nil => exact hw
  | cons b bs ih =>
    simp only [List.length_cons] at ha
    exact ih (Memory.write_wfFrom hw (Nat.zero_le a) (by omega) b) (by omega)

/-- Bytes stored leave every address outside them alone, whatever the list. -/
theorem Memory.read_writeList_outside (m : Memory) {a c : Nat} {bs : List Byte} (h : c < a ∨ a + bs.length ≤ c) :
    Memory.read fb (Memory.writeList fb m a bs) c = Memory.read fb m c := by
  induction bs generalizing m a with
  | nil => rfl
  | cons b bs ih =>
    simp only [List.length_cons] at h
    rw [Memory.writeList, ih _ (by omega), Memory.read_write_other _ _ (by omega)]

/-- A stored byte is read back at its address, in a canonical memory. -/
theorem Memory.read_writeList_inside {m : Memory} {a : Nat} {bs : List Byte} (hw : Memory.wf fb m = true)
    (ha : a + bs.length ≤ memSize) {k : Nat} (hk : k < bs.length) :
    Memory.read fb (Memory.writeList fb m a bs) (a + k) = bs[k] := by
  induction bs generalizing m a k with
  | nil => simp at hk
  | cons b bs ih =>
    simp only [List.length_cons] at ha hk
    have hwb := Memory.write_wfFrom hw (Nat.zero_le a) (by omega : a < memSize) b
    cases k with
    | zero =>
      rw [Memory.writeList, Memory.read_writeList_outside _ (by omega)]
      exact Memory.read_write_same hw a b
    | succ k =>
      have := ih (a := a + 1) hwb (by omega) (k := k) (by omega)
      simpa [Memory.writeList, Nat.add_assoc, Nat.add_comm 1 k] using this

/-- The reset memory is in canonical form. -/
theorem State.reset_mem_wf (c : Config) : Memory.wf (State.resetWith c).config.fontBase (State.resetWith c).mem = true := rfl

/-- Storing leaves every byte outside the stored ones alone. -/
theorem State.storeBytes_byte_outside (s : State) {a c : Nat} {bs : List Byte} (h : c < a ∨ a + bs.length ≤ c) :
    (s.storeBytes a bs).byte c = s.byte c :=
  Memory.read_writeList_outside s.mem h

/-- A stored byte is read back. -/
theorem State.storeBytes_byte_inside {s : State} (hw : Memory.wf s.config.fontBase s.mem = true) {a : Nat}
    {bs : List Byte} (ha : a + bs.length ≤ memSize) {k : Nat} (hk : k < bs.length) :
    (s.storeBytes a bs).byte (a + k) = bs[k] :=
  Memory.read_writeList_inside hw ha hk

end Sys2Proof.Machine
end

