-- ==== Sys2Proof/Laws/Ops.lean ====
section
/-! SUPPORT. One lemma per shared operation that says once everything it can do: the range check, the key check, the block
load, the tick, and the step as a whole. -/

namespace Sys2Proof.Machine

/-! ### Checks -/

theorem inRange_iff (base len : Nat) : inRange base len = true ↔ len = 0 ∨ base + len ≤ 4096 := by
  simp only [inRange, memSize, Bool.or_eq_true, decide_eq_true_eq]

/-- In range the access goes on; out of range it is the fault of R202 and nothing else. -/
theorem State.withRange_eq (s : State) (base len : Nat) (k : StepResult) :
    s.withRange base len k =
      if len = 0 ∨ base + len ≤ 4096 then k else .fault (.memRange (s.pc - 2) (max base 4096)) := by
  simp [State.withRange, raiseFault, State.instrAddr, firstOutside, memSize, inRange_iff]

/-- A key that exists is read; one above 15 is the fault of R203 and nothing else. -/
theorem State.withKey_eq (s : State) (x : Reg) (k : Bool → StepResult) :
    s.withKey x k =
      if h : (s.reg x).toNat < 16 then k (s.key ⟨(s.reg x).toNat, h⟩) else .fault (.keyRange (s.pc - 2) (s.reg x)) := rfl

/-- STACK_LIMIT is reached exactly when the stack holds that many entries (R131). -/
theorem State.stackFull_iff (s : State) : s.stackFull = true ↔ s.config.stackLimit = some s.stack.length := by
  simp [State.stackFull]

/-! ### Flags -/

@[simp] theorem flagByte_toNat (b : Bool) : (flagByte b).toNat = b.toNat := by cases b <;> rfl

theorem State.flagThenResult_reg (s : State) (x q : Reg) (f r : Byte) :
    (s.flagThenResult x f r).reg q = if q = x then r else if q = VF then f else s.reg q := by
  simp [State.flagThenResult]

/-! ### I after a block transfer -/

theorem State.stepI_eq (s : State) (x : Reg) :
    s.stepI x = match s.config.memIMode with
      | .unchanged => s
      | .increment => s.setI (BitVec.ofNat 16 (s.iReg.toNat + (x.val + 1))) := rfl

/-- Only I can differ after `stepI`. -/
theorem State.stepI_cases (s : State) (x : Reg) :
    (s.config.memIMode = .unchanged ∧ s.stepI x = s) ∨
    (s.config.memIMode = .increment ∧ s.stepI x = s.setI (BitVec.ofNat 16 (s.iReg.toNat + (x.val + 1)))) := by
  rw [State.stepI_eq]
  cases s.config.memIMode <;> simp

/-! ### Block load -/

/-- The loads of R195 in a list: the registers below `count` hold the bytes from `base` on, the others are as before, and no
other field changes. -/
theorem State.loadRegs_spec (s : State) (base count : Nat) :
    (∀ r : Reg, (s.loadRegs base count).reg r = if r.val < count then s.byte (base + r.val) else s.reg r) ∧
    ∃ v', s.loadRegs base count = { s with v := v' } := by
  induction count with
  | zero => exact ⟨fun r => by simp [State.loadRegs], s.v, rfl⟩
  | succ n ih =>
    obtain ⟨hreg, v', hv⟩ := ih
    have hfold : s.loadRegs base (n + 1) = State.loadRegAt base (s.loadRegs base n) n := by
      simp [State.loadRegs, List.range_succ]
    have hstep : s.loadRegs base (n + 1) = { s with v := v'.setIfInBounds n (s.byte (base + n)) } := by
      rw [hfold, hv]; rfl
    refine ⟨fun r => ?_, _, hstep⟩
    have hr := hreg r
    rw [hv] at hr
    rw [hstep]
    simp only [State.reg] at hr ⊢
    rw [Vector.getElem_setIfInBounds]
    split
    · rename_i h; subst h; simp
    · rename_i h
      rw [hr]
      have : (r.val < n + 1) ↔ r.val < n := by omega
      simp only [this]

/-! ### The tick (R212) -/

@[simp] theorem tickTimer_toNat (t : Byte) : (tickTimer t).toNat = t.toNat - 1 := by
  unfold tickTimer
  split
  · rename_i h; simp [h]
  · rename_i h
    have hne : t.toNat ≠ 0 := fun hz => h (BitVec.eq_of_toNat_eq (by simpa using hz))
    rw [BitVec.toNat_sub_of_le (by rw [BitVec.le_def]; simp; omega)]
    rfl

/-! ### The step -/

theorem finishStep_next_iff (o : StepResult) (t : State) :
    finishStep o = .next t ↔ ∃ u, o = .next u ∧ t = u.endStep := by
  cases o <;> simp [finishStep, eq_comm]

theorem finishStep_fault_iff (o : StepResult) (r : Fault) : finishStep o = .fault r ↔ o = .fault r := by
  cases o <;> simp [finishStep]

/-- Everything a completed step can be: running, fetched in range, executed, ticked (R110). -/
theorem step_next_iff (s t : State) :
    step s = .next t ↔ s.status = .running ∧ s.pc.toNat + 1 ≤ 4095 ∧
      ∃ u, exec (decode s.fetchWord) s.beginExecute = .next u ∧ t = u.endStep := by
  unfold step
  cases hs : s.status with
  | faulted r => simp
  | running =>
    by_cases hc : s.pc.toNat + 1 ≤ 4095
    · simp [State.canFetch, hc, finishStep_next_iff]
    · simp [State.canFetch, hc, raiseFault]

/-- A step from a running state whose fetch is in range is its execute phase, finished. -/
theorem step_of_running {s : State} (hs : s.status = .running) (hc : s.pc.toNat + 1 ≤ 4095) :
    step s = finishStep (exec (decode s.fetchWord) s.beginExecute) := by
  simp [step, hs, State.canFetch, hc]

end Sys2Proof.Machine
end

