-- ==== Sys2Proof/Laws/Blocks.lean ====
section
/-! SUPPORT. One lemma per field per update, continued: the flag-writing result, the block load and the step of I, which take a
case analysis or an induction and are not true by unfolding alone. -/

namespace Sys2Proof.Machine

@[simp] theorem State.flagThenResult_iReg (s : State) (x : Reg) (f r : Byte) : (s.flagThenResult x f r).iReg = s.iReg := rfl
@[simp] theorem State.flagThenResult_pc (s : State) (x : Reg) (f r : Byte) : (s.flagThenResult x f r).pc = s.pc := rfl
@[simp] theorem State.flagThenResult_dt (s : State) (x : Reg) (f r : Byte) : (s.flagThenResult x f r).dt = s.dt := rfl
@[simp] theorem State.flagThenResult_st (s : State) (x : Reg) (f r : Byte) : (s.flagThenResult x f r).st = s.st := rfl
@[simp] theorem State.flagThenResult_stack (s : State) (x : Reg) (f r : Byte) : (s.flagThenResult x f r).stack = s.stack := rfl
@[simp] theorem State.flagThenResult_mem (s : State) (x : Reg) (f r : Byte) : (s.flagThenResult x f r).mem = s.mem := rfl
@[simp] theorem State.flagThenResult_display (s : State) (x : Reg) (f r : Byte) : (s.flagThenResult x f r).display = s.display := rfl
@[simp] theorem State.flagThenResult_keys (s : State) (x : Reg) (f r : Byte) : (s.flagThenResult x f r).keys = s.keys := rfl
@[simp] theorem State.flagThenResult_status (s : State) (x : Reg) (f r : Byte) : (s.flagThenResult x f r).status = s.status := rfl
@[simp] theorem State.flagThenResult_config (s : State) (x : Reg) (f r : Byte) : (s.flagThenResult x f r).config = s.config := rfl
@[simp] theorem State.flagThenResult_redraw (s : State) (x : Reg) (f r : Byte) : (s.flagThenResult x f r).redraw = s.redraw := rfl
@[simp] theorem State.flagThenResult_sound (s : State) (x : Reg) (f r : Byte) : (s.flagThenResult x f r).sound = s.sound := rfl
@[simp] theorem State.flagThenResult_loadOpen (s : State) (x : Reg) (f r : Byte) : (s.flagThenResult x f r).loadOpen = s.loadOpen := rfl
@[simp] theorem State.flagThenResult_rndIndex (s : State) (x : Reg) (f r : Byte) : (s.flagThenResult x f r).rndIndex = s.rndIndex := rfl
@[simp] theorem State.flagThenResult_byte (s : State) (x : Reg) (f r : Byte) (a : Nat) : (s.flagThenResult x f r).byte a = s.byte a := rfl
@[simp] theorem State.flagThenResult_key (s : State) (x : Reg) (f r : Byte) (k : Fin 16) : (s.flagThenResult x f r).key k = s.key k := rfl

/-- A block load changes V only. -/
theorem State.loadRegs_eq (s : State) (base count : Nat) : s.loadRegs base count = { s with v := (s.loadRegs base count).v } := by
  obtain ⟨v', hv⟩ := (State.loadRegs_spec s base count).2
  rw [hv]

@[simp] theorem State.loadRegs_iReg (s : State) (base count : Nat) : (s.loadRegs base count).iReg = s.iReg := by rw [State.loadRegs_eq]
@[simp] theorem State.loadRegs_pc (s : State) (base count : Nat) : (s.loadRegs base count).pc = s.pc := by rw [State.loadRegs_eq]
@[simp] theorem State.loadRegs_dt (s : State) (base count : Nat) : (s.loadRegs base count).dt = s.dt := by rw [State.loadRegs_eq]
@[simp] theorem State.loadRegs_st (s : State) (base count : Nat) : (s.loadRegs base count).st = s.st := by rw [State.loadRegs_eq]
@[simp] theorem State.loadRegs_stack (s : State) (base count : Nat) : (s.loadRegs base count).stack = s.stack := by rw [State.loadRegs_eq]
@[simp] theorem State.loadRegs_mem (s : State) (base count : Nat) : (s.loadRegs base count).mem = s.mem := by rw [State.loadRegs_eq]
@[simp] theorem State.loadRegs_display (s : State) (base count : Nat) : (s.loadRegs base count).display = s.display := by rw [State.loadRegs_eq]
@[simp] theorem State.loadRegs_keys (s : State) (base count : Nat) : (s.loadRegs base count).keys = s.keys := by rw [State.loadRegs_eq]
@[simp] theorem State.loadRegs_status (s : State) (base count : Nat) : (s.loadRegs base count).status = s.status := by rw [State.loadRegs_eq]
@[simp] theorem State.loadRegs_config (s : State) (base count : Nat) : (s.loadRegs base count).config = s.config := by rw [State.loadRegs_eq]
@[simp] theorem State.loadRegs_redraw (s : State) (base count : Nat) : (s.loadRegs base count).redraw = s.redraw := by rw [State.loadRegs_eq]
@[simp] theorem State.loadRegs_sound (s : State) (base count : Nat) : (s.loadRegs base count).sound = s.sound := by rw [State.loadRegs_eq]
@[simp] theorem State.loadRegs_loadOpen (s : State) (base count : Nat) : (s.loadRegs base count).loadOpen = s.loadOpen := by rw [State.loadRegs_eq]
@[simp] theorem State.loadRegs_rndIndex (s : State) (base count : Nat) : (s.loadRegs base count).rndIndex = s.rndIndex := by rw [State.loadRegs_eq]
@[simp] theorem State.loadRegs_byte (s : State) (base count a : Nat) : (s.loadRegs base count).byte a = s.byte a := by
  rw [State.loadRegs_eq]; rfl
@[simp] theorem State.loadRegs_key (s : State) (base count : Nat) (k : Fin 16) : (s.loadRegs base count).key k = s.key k := by
  rw [State.loadRegs_eq]; rfl

@[simp] theorem State.stepI_pc (s : State) (x : Reg) : (s.stepI x).pc = s.pc := by
  rw [State.stepI_eq]; split <;> rfl
@[simp] theorem State.stepI_dt (s : State) (x : Reg) : (s.stepI x).dt = s.dt := by
  rw [State.stepI_eq]; split <;> rfl
@[simp] theorem State.stepI_st (s : State) (x : Reg) : (s.stepI x).st = s.st := by
  rw [State.stepI_eq]; split <;> rfl
@[simp] theorem State.stepI_stack (s : State) (x : Reg) : (s.stepI x).stack = s.stack := by
  rw [State.stepI_eq]; split <;> rfl
@[simp] theorem State.stepI_mem (s : State) (x : Reg) : (s.stepI x).mem = s.mem := by
  rw [State.stepI_eq]; split <;> rfl
@[simp] theorem State.stepI_display (s : State) (x : Reg) : (s.stepI x).display = s.display := by
  rw [State.stepI_eq]; split <;> rfl
@[simp] theorem State.stepI_keys (s : State) (x : Reg) : (s.stepI x).keys = s.keys := by
  rw [State.stepI_eq]; split <;> rfl
@[simp] theorem State.stepI_status (s : State) (x : Reg) : (s.stepI x).status = s.status := by
  rw [State.stepI_eq]; split <;> rfl
@[simp] theorem State.stepI_config (s : State) (x : Reg) : (s.stepI x).config = s.config := by
  rw [State.stepI_eq]; split <;> rfl
@[simp] theorem State.stepI_redraw (s : State) (x : Reg) : (s.stepI x).redraw = s.redraw := by
  rw [State.stepI_eq]; split <;> rfl
@[simp] theorem State.stepI_sound (s : State) (x : Reg) : (s.stepI x).sound = s.sound := by
  rw [State.stepI_eq]; split <;> rfl
@[simp] theorem State.stepI_loadOpen (s : State) (x : Reg) : (s.stepI x).loadOpen = s.loadOpen := by
  rw [State.stepI_eq]; split <;> rfl
@[simp] theorem State.stepI_rndIndex (s : State) (x : Reg) : (s.stepI x).rndIndex = s.rndIndex := by
  rw [State.stepI_eq]; split <;> rfl
@[simp] theorem State.stepI_v (s : State) (x : Reg) : (s.stepI x).v = s.v := by
  rw [State.stepI_eq]; split <;> rfl
@[simp] theorem State.stepI_reg (s : State) (x r : Reg) : (s.stepI x).reg r = s.reg r := by
  rw [State.reg, State.stepI_v]; rfl
@[simp] theorem State.stepI_byte (s : State) (x : Reg) (a : Nat) : (s.stepI x).byte a = s.byte a := by
  simp [State.byte]
@[simp] theorem State.stepI_key (s : State) (x : Reg) (k : Fin 16) : (s.stepI x).key k = s.key k := by
  simp [State.key]

/-- I after a block transfer, as a number (R194, R195). -/
theorem State.stepI_iReg (s : State) (x : Reg) :
    (s.config.memIMode = .unchanged → (s.stepI x).iReg = s.iReg) ∧
    (s.config.memIMode = .increment → (s.stepI x).iReg.toNat = (s.iReg.toNat + x.val + 1) % 65536) := by
  rcases State.stepI_cases s x with ⟨h, e⟩ | ⟨h, e⟩ <;> rw [e, h] <;> simp [Nat.add_assoc]

end Sys2Proof.Machine
end

