-- ==== Sys2Proof/Laws/Decode.lean ====
section
/-! SUPPORT. The fields of a packed word are what was packed, and a word is its two bytes. -/

namespace Sys2Proof

@[simp] theorem regOfBits_regBits (r : Reg) : regOfBits (regBits r) = r := by
  apply Fin.ext
  simp [regOfBits, regBits]

@[simp] theorem regBits_regOfBits (f : BitVec 4) : regBits (regOfBits f) = f := by
  simp [regOfBits, regBits]

/-! ### Slices of a concatenation (R12) -/

/-- A slice above the low part is a slice of the high part. -/
theorem slice_append_high {m n : Nat} (a : BitVec m) (b : BitVec n) (k j : Nat) :
    (a ++ b).extractLsb' (n + k) j = a.extractLsb' k j := by
  ext i hi
  have h1 : ¬ (n + k + i < n) := by omega
  have h2 : n + k + i - n = k + i := by omega
  simp [BitVec.getLsbD_append, h1, h2]

/-- A slice inside the low part is a slice of it. -/
theorem slice_append_low {m n : Nat} (a : BitVec m) (b : BitVec n) (k j : Nat) (h : k + j ≤ n) :
    (a ++ b).extractLsb' k j = b.extractLsb' k j := by
  ext i hi
  have h1 : k + i < n := by omega
  simp [BitVec.getLsbD_append, h1]

/-! ### Fields of a packed word (R81, R82) -/

@[simp] theorem opField_packNNN (op : BitVec 4) (nnn : Addr12) : opField (packNNN op nnn) = op :=
  (slice_append_high op nnn 0 4).trans (BitVec.extractLsb'_eq_self)

@[simp] theorem nnnField_packNNN (op : BitVec 4) (nnn : Addr12) : nnnField (packNNN op nnn) = nnn :=
  (slice_append_low op nnn 0 12 (by decide)).trans (BitVec.extractLsb'_eq_self)

@[simp] theorem opField_packXNN (op : BitVec 4) (x : Reg) (nn : Byte) : opField (packXNN op x nn) = op :=
  (slice_append_high (op ++ regBits x) nn 4 4).trans
    ((slice_append_high op (regBits x) 0 4).trans BitVec.extractLsb'_eq_self)

@[simp] theorem xField_packXNN (op : BitVec 4) (x : Reg) (nn : Byte) : xField (packXNN op x nn) = x :=
  (congrArg regOfBits ((slice_append_high (op ++ regBits x) nn 0 4).trans
    ((slice_append_low op (regBits x) 0 4 (by decide)).trans BitVec.extractLsb'_eq_self))).trans (regOfBits_regBits x)

@[simp] theorem nnField_packXNN (op : BitVec 4) (x : Reg) (nn : Byte) : nnField (packXNN op x nn) = nn :=
  (slice_append_low (op ++ regBits x) nn 0 8 (by decide)).trans BitVec.extractLsb'_eq_self

@[simp] theorem opField_packXYN (op : BitVec 4) (x y : Reg) (n : BitVec 4) : opField (packXYN op x y n) = op :=
  (slice_append_high (op ++ regBits x ++ regBits y) n 8 4).trans
    ((slice_append_high (op ++ regBits x) (regBits y) 4 4).trans
      ((slice_append_high op (regBits x) 0 4).trans BitVec.extractLsb'_eq_self))

@[simp] theorem xField_packXYN (op : BitVec 4) (x y : Reg) (n : BitVec 4) : xField (packXYN op x y n) = x :=
  (congrArg regOfBits ((slice_append_high (op ++ regBits x ++ regBits y) n 4 4).trans
    ((slice_append_high (op ++ regBits x) (regBits y) 0 4).trans
      ((slice_append_low op (regBits x) 0 4 (by decide)).trans BitVec.extractLsb'_eq_self)))).trans (regOfBits_regBits x)

@[simp] theorem yField_packXYN (op : BitVec 4) (x y : Reg) (n : BitVec 4) : yField (packXYN op x y n) = y :=
  (congrArg regOfBits ((slice_append_high (op ++ regBits x ++ regBits y) n 0 4).trans
    ((slice_append_low (op ++ regBits x) (regBits y) 0 4 (by decide)).trans BitVec.extractLsb'_eq_self))).trans
      (regOfBits_regBits y)

@[simp] theorem nField_packXYN (op : BitVec 4) (x y : Reg) (n : BitVec 4) : nField (packXYN op x y n) = n :=
  (slice_append_low (op ++ regBits x ++ regBits y) n 0 4 (by decide)).trans BitVec.extractLsb'_eq_self

/-! ### A word from its fields -/

/-- Adjacent slices of a word, joined, are the slice that covers both. -/
theorem slice_append_slice (w : Word) (k m n : Nat) :
    w.extractLsb' (k + n) m ++ w.extractLsb' k n = w.extractLsb' k (m + n) := by
  ext i hi
  simp only [BitVec.getElem_append, BitVec.getElem_extractLsb']
  split
  · rfl
  · congr 1; omega

theorem packNNN_fields (w : Word) : packNNN (opField w) (nnnField w) = w :=
  (slice_append_slice w 0 4 12).trans BitVec.extractLsb'_eq_self

theorem packXNN_fields (w : Word) : packXNN (opField w) (xField w) (nnField w) = w := by
  unfold packXNN xField
  rw [regBits_regOfBits]
  exact (congrArg (· ++ nnField w) (slice_append_slice w 8 4 4)).trans
    ((slice_append_slice w 0 8 8).trans BitVec.extractLsb'_eq_self)

theorem packXYN_fields (w : Word) : packXYN (opField w) (xField w) (yField w) (nField w) = w := by
  unfold packXYN xField yField
  rw [regBits_regOfBits, regBits_regOfBits]
  exact (congrArg (fun t : BitVec 8 => t ++ w.extractLsb' 4 4 ++ nField w) (slice_append_slice w 8 4 4)).trans
    ((congrArg (fun t : BitVec 12 => t ++ nField w) (slice_append_slice w 4 8 4)).trans
      ((slice_append_slice w 0 12 4).trans BitVec.extractLsb'_eq_self))

/-! ### Bytes (R53, R80) -/

@[simp] theorem wordOfBytes_bytesOfWord (w : Word) : wordOfBytes (w.extractLsb' 8 8) (w.extractLsb' 0 8) = w :=
  (slice_append_slice w 0 8 8).trans BitVec.extractLsb'_eq_self

theorem wordOfBytes_toNat (hi lo : Byte) : (wordOfBytes hi lo).toNat = 256 * hi.toNat + lo.toNat := by
  unfold wordOfBytes
  rw [BitVec.toNat_append, Nat.shiftLeft_eq, Nat.mul_comm, ← Nat.two_pow_add_eq_or_of_lt lo.isLt]

/-- Two stored bytes decode as their word, whatever follows. -/
@[simp] theorem decodeBytes_bytesOfWord (w : Word) (rest : List Byte) :
    decodeBytes (bytesOfWord w ++ rest) = .ok (decode w, rest) := by
  simp [decodeBytes, bytesOfWord]

/-- A word of a family other than 0 is neither literal, so the top nibble routes it (R84). -/
theorem ne_literals_of_opField {w : Word} (h : opField w ≠ 0) : w ≠ 0x00E0 ∧ w ≠ 0x00EE := by
  constructor <;> (rintro rfl; exact h (by decide))

theorem decode_of_opField {w : Word} (h : opField w ≠ 0) : decode w = decodeFamily w := by
  unfold decode
  rw [if_neg (ne_literals_of_opField h).1, if_neg (ne_literals_of_opField h).2]

/-- A word of family 0 that is neither literal is NOP (R89). -/
theorem decode_of_opField_zero {w : Word} (h : opField w = 0) (h1 : w ≠ 0x00E0) (h2 : w ≠ 0x00EE) :
    decode w = .nop := by
  unfold decode
  rw [if_neg h1, if_neg h2]
  simp [decodeFamily, h]

/-- The sixteen values of a nibble. -/
theorem nibble_cases (o : BitVec 4) :
    o = 0 ∨ o = 1 ∨ o = 2 ∨ o = 3 ∨ o = 4 ∨ o = 5 ∨ o = 6 ∨ o = 7 ∨
    o = 8 ∨ o = 9 ∨ o = 10 ∨ o = 11 ∨ o = 12 ∨ o = 13 ∨ o = 14 ∨ o = 15 := by
  revert o; decide

/-- What the sub-routed families leave undefined (R87). -/
theorem decode8_eq_nop_iff (x y : Reg) (n : BitVec 4) :
    decode8 x y n = .nop ↔ n ∈ [0x8, 0x9, 0xA, 0xB, 0xC, 0xD, 0xF] := by
  rcases nibble_cases n with h | h | h | h | h | h | h | h | h | h | h | h | h | h | h | h <;> subst h <;>
    simp [decode8]

theorem decodeE_eq_nop_iff (x : Reg) (nn : Byte) : decodeE x nn = .nop ↔ nn ∉ [0x9E, 0xA1] := by
  unfold decodeE
  split <;> simp_all

theorem decodeF_eq_nop_iff (x : Reg) (nn : Byte) :
    decodeF x nn = .nop ↔ nn ∉ [0x07, 0x0A, 0x15, 0x18, 0x1E, 0x29, 0x33, 0x55, 0x65] := by
  unfold decodeF
  split <;> simp_all

end Sys2Proof
end

