-- ==== Sys2Proof/Laws/Display.lean ====
section
/-! SUPPORT. What the raster operations do to each cell: the loops of R171 against the sprite as a set of cells. -/

namespace Sys2Proof.Machine

@[simp] theorem Display.clear_pixel (px py : Nat) : Display.clear.pixel px py = false := by
  simp [Display.pixel, Display.clear]

/-- Only the flipped cell differs, and it is the negation of what it was. -/
theorem Display.flip_pixel (d : Display) (px py qx qy : Nat) :
    (d.flip px py).pixel qx qy =
      if qx = px ∧ qy = py ∧ px < 64 ∧ py < 32 then !d.pixel px py else d.pixel qx qy := by
  unfold Display.flip
  by_cases hy : py < 32
  · by_cases hqy : qy < 32
    · by_cases hqx : qx < 64
      · by_cases he : py = qy
        · subst he
          by_cases hx : px = qx
          · subst hx; simp [Display.pixel, hy, hqx]
          · have hx' : ¬ qx = px := fun h => hx h.symm
            simp [Display.pixel, hy, hqx, hx, hx']
        · have he' : ¬ qy = py := fun h => he h.symm
          simp [Display.pixel, hy, hqy, hqx, he, he']
      · have : ¬ (qx = px ∧ qy = py ∧ px < 64 ∧ py < 32) := by omega
        simp [Display.pixel, hqy, hqx, this]
    · have : ¬ (qx = px ∧ qy = py ∧ px < 64 ∧ py < 32) := by omega
      simp [Display.pixel, hqy, this]
  · simp [hy]

/-- The bit of a row that lands in column `px` among the first `k` columns of a sprite at column `x0`, clipped. -/
def rowBit (row : Byte) (x0 k px : Nat) : Bool :=
  decide (px < 64 ∧ x0 ≤ px ∧ px < x0 + k) && row.getLsbD (7 - (px - x0))

/-- The first `k` columns of a row, on every cell and on the collision. -/
theorem drawCells_spec (row : Byte) (x0 py : Nat) (hpy : py < 32) (c : Canvas) (k : Nat) :
    (∀ px qy, ((List.range k).foldl (drawCell row x0 py) c).1.pixel px qy =
      (c.1.pixel px qy ^^ (decide (qy = py) && rowBit row x0 k px))) ∧
    (((List.range k).foldl (drawCell row x0 py) c).2 = true ↔
      c.2 = true ∨ ∃ px, rowBit row x0 k px = true ∧ c.1.pixel px py = true) := by
  induction k with
  | zero =>
    have h0 : ∀ px, rowBit row x0 0 px = false := by
      intro px
      simp only [rowBit, Bool.and_eq_false_iff, decide_eq_false_iff_not]
      left; omega
    simp [h0]
  | succ k ih =>
    obtain ⟨hpix, hcol⟩ := ih
    rw [List.range_succ, List.foldl_append, List.foldl_cons, List.foldl_nil]
    generalize hg : (List.range k).foldl (drawCell row x0 py) c = g at hpix hcol
    have hold : ∀ px, px ≠ x0 + k → rowBit row x0 (k + 1) px = rowBit row x0 k px := by
      intro px hne
      unfold rowBit
      congr 1
      exact decide_eq_decide.mpr (by omega)
    have hknot : rowBit row x0 k (x0 + k) = false := by
      simp only [rowBit, Bool.and_eq_false_iff, decide_eq_false_iff_not]
      left; omega
    unfold drawCell
    by_cases hb : x0 + k ≤ 63 ∧ row.getLsbD (7 - k) = true
    · have hnew : rowBit row x0 (k + 1) (x0 + k) = true := by
        simp only [rowBit, Bool.and_eq_true, decide_eq_true_eq]
        exact ⟨by omega, by simpa using hb.2⟩
      rw [if_pos hb]
      refine ⟨fun px qy => ?_, ?_⟩
      · rw [Display.flip_pixel]
        by_cases hp : px = x0 + k
        · subst hp
          by_cases hq : qy = py
          · subst hq
            simp [hpix, hknot, hnew, hpy, Nat.lt_succ_of_le hb.1]
          · simp [hq, hpix]
        · simp [hp, hpix, hold px hp]
      · simp only [Bool.or_eq_true, hcol, hpix, hknot, Bool.and_false, Bool.xor_false]
        constructor
        · rintro ((h | ⟨px, h1, h2⟩) | h)
          · exact Or.inl h
          · refine Or.inr ⟨px, ?_, h2⟩
            rw [hold px (fun he => by rw [he, hknot] at h1; cases h1)]
            exact h1
          · exact Or.inr ⟨_, hnew, h⟩
        · rintro (h | ⟨px, h1, h2⟩)
          · exact Or.inl (Or.inl h)
          · by_cases hp : px = x0 + k
            · exact Or.inr (hp ▸ h2)
            · exact Or.inl (Or.inr ⟨px, by rwa [hold px hp] at h1, h2⟩)
    · have hnew : rowBit row x0 (k + 1) (x0 + k) = false := by
        simp only [rowBit, Bool.and_eq_false_iff, decide_eq_false_iff_not]
        by_cases hle : x0 + k ≤ 63
        · right
          have : ¬ row.getLsbD (7 - k) = true := fun h => hb ⟨hle, h⟩
          simpa using this
        · left; omega
      have hsame : ∀ px, rowBit row x0 (k + 1) px = rowBit row x0 k px := by
        intro px
        by_cases hp : px = x0 + k
        · rw [hp, hnew, hknot]
        · exact hold px hp
      rw [if_neg hb]
      simp only [hsame]
      exact ⟨hpix, hcol⟩

/-- A sprite bit is a row's bit, in a visible row of the sprite. -/
theorem spriteBit_eq (rows : Nat → Byte) (x0 y0 n px py : Nat) :
    spriteBit rows x0 y0 n px py =
      (decide (py < 32 ∧ y0 ≤ py ∧ py < y0 + n) && rowBit (rows (py - y0)) x0 8 px) := by
  unfold spriteBit rowBit
  rw [← Bool.and_assoc]
  congr 1
  rw [← Bool.decide_and]
  exact decide_eq_decide.mpr (by omega)

/-- The draw of R171 on every cell, and its collision: each cell is XORed with the sprite's bit, and VF tells whether a sprite bit
landed on a cell that was on. -/
theorem State.drawSprite_spec (s : State) (x0 y0 base n : Nat) :
    (∀ px py, (s.drawSprite x0 y0 base n).1.pixel px py =
      (s.display.pixel px py ^^ spriteBit (fun r => s.byte (base + r)) x0 y0 n px py)) ∧
    ((s.drawSprite x0 y0 base n).2 = true ↔
      ∃ px py, spriteBit (fun r => s.byte (base + r)) x0 y0 n px py = true ∧ s.display.pixel px py = true) := by
  induction n with
  | zero =>
    have h0 : ∀ px py, spriteBit (fun r => s.byte (base + r)) x0 y0 0 px py = false := by
      intro px py
      simp only [spriteBit, Bool.and_eq_false_iff, decide_eq_false_iff_not]
      left; omega
    simp [h0, State.drawSprite]
  | succ n ih =>
    obtain ⟨hpix, hcol⟩ := ih
    have hstep : s.drawSprite x0 y0 base (n + 1) =
        if y0 + n ≤ 31 then drawRow (s.byte (base + n)) x0 (y0 + n) (s.drawSprite x0 y0 base n)
        else s.drawSprite x0 y0 base n := by
      simp [State.drawSprite, List.range_succ]
    rw [hstep]
    generalize s.drawSprite x0 y0 base n = g at hpix hcol
    have hold : ∀ px py, py ≠ y0 + n → spriteBit (fun r => s.byte (base + r)) x0 y0 (n + 1) px py =
        spriteBit (fun r => s.byte (base + r)) x0 y0 n px py := by
      intro px py hne
      unfold spriteBit
      congr 1
      exact decide_eq_decide.mpr (by omega)
    have hnot : ∀ px, spriteBit (fun r => s.byte (base + r)) x0 y0 n px (y0 + n) = false := by
      intro px
      simp only [spriteBit, Bool.and_eq_false_iff, decide_eq_false_iff_not]
      left; omega
    by_cases hy : y0 + n ≤ 31
    · have hnew : ∀ px, spriteBit (fun r => s.byte (base + r)) x0 y0 (n + 1) px (y0 + n) =
          rowBit (s.byte (base + n)) x0 8 px := by
        intro px
        rw [spriteBit_eq]
        have : y0 + n < 32 ∧ y0 ≤ y0 + n ∧ y0 + n < y0 + (n + 1) := by omega
        simp [this]
      obtain ⟨dpix, dcol⟩ := drawCells_spec (s.byte (base + n)) x0 (y0 + n) (by omega) g 8
      rw [if_pos hy]
      refine ⟨fun px py => ?_, ?_⟩
      · unfold drawRow
        rw [dpix, hpix]
        by_cases hp : py = y0 + n
        · subst hp; simp [hnot, hnew]
        · simp [hp, hold px py hp]
      · unfold drawRow
        rw [dcol, hcol]
        simp only [hpix, hnot, Bool.xor_false]
        constructor
        · rintro (⟨px, py, h1, h2⟩ | ⟨px, h1, h2⟩)
          · refine ⟨px, py, ?_, h2⟩
            rw [hold px py (fun he => by rw [he, hnot] at h1; cases h1)]
            exact h1
          · exact ⟨px, y0 + n, by rw [hnew]; exact h1, h2⟩
        · rintro ⟨px, py, h1, h2⟩
          by_cases hp : py = y0 + n
          · subst hp
            exact Or.inr ⟨px, by rwa [hnew] at h1, h2⟩
          · exact Or.inl ⟨px, py, by rwa [hold px py hp] at h1, h2⟩
    · have hsame : ∀ px py, spriteBit (fun r => s.byte (base + r)) x0 y0 (n + 1) px py =
          spriteBit (fun r => s.byte (base + r)) x0 y0 n px py := by
        intro px py
        by_cases hp : py = y0 + n
        · subst hp
          rw [hnot]
          simp only [spriteBit, Bool.and_eq_false_iff, decide_eq_false_iff_not]
          left; omega
        · exact hold px py hp
      rw [if_neg hy]
      simp only [hsame]
      exact ⟨hpix, hcol⟩

end Sys2Proof.Machine
end

