-- ==== Sys2Proof/Laws/Frames.lean ====
section
/-! SUPPORT. The frame of every shared update: which parts of a state it can change. -/

namespace Sys2Proof.Machine

theorem OnlyChanges.refl (s : State) (may : Part → Prop) : OnlyChanges s s may := by
  intro p _; cases p <;> rfl

/-- A frame holds with more parts allowed to change. -/
theorem OnlyChanges.mono {s t : State} {may may' : Part → Prop} (h : OnlyChanges s t may) (hm : ∀ p, may p → may' p) :
    OnlyChanges s t may' := fun p hp => h p fun hq => hp (hm p hq)

/-- Frames compose. -/
theorem OnlyChanges.trans {s t u : State} {may : Part → Prop} (h : OnlyChanges s t may) (k : OnlyChanges t u may) :
    OnlyChanges s u may := by
  intro p hp
  have h1 := h p hp
  have h2 := k p hp
  cases p <;> exact Eq.trans h2 h1

theorem onlyChanges_setReg (s : State) (r : Reg) (b : Byte) : OnlyChanges s (s.setReg r b) (· ∈ [.reg r]) := by
  intro p hp
  cases p <;> simp_all [Part.Unchanged]

theorem onlyChanges_setPc (s : State) (w : Word) : OnlyChanges s (s.setPc w) (· ∈ [.pc]) := by
  intro p hp
  cases p <;> simp_all [Part.Unchanged]

theorem onlyChanges_setI (s : State) (w : Word) : OnlyChanges s (s.setI w) (· ∈ [.iReg]) := by
  intro p hp
  cases p <;> simp_all [Part.Unchanged]

theorem onlyChanges_setDt (s : State) (b : Byte) : OnlyChanges s (s.setDt b) (· ∈ [.dt]) := by
  intro p hp
  cases p <;> simp_all [Part.Unchanged]

theorem onlyChanges_setSt (s : State) (b : Byte) : OnlyChanges s (s.setSt b) (· ∈ [.st]) := by
  intro p hp
  cases p <;> simp_all [Part.Unchanged]

theorem onlyChanges_push (s : State) (w : Word) : OnlyChanges s (s.push w) (· ∈ [.stack]) := by
  intro p hp
  cases p <;> simp_all [Part.Unchanged]

theorem onlyChanges_consumeRnd (s : State) : OnlyChanges s s.consumeRnd (· ∈ [.rndIndex]) := by
  intro p hp
  cases p <;> simp_all [Part.Unchanged]

theorem onlyChanges_beginExecute (s : State) : OnlyChanges s s.beginExecute (· ∈ [.pc, .redraw, .loadOpen]) := by
  intro p hp
  cases p <;> simp_all [Part.Unchanged]

theorem onlyChanges_endStep (s : State) : OnlyChanges s s.endStep (· ∈ [.dt, .st, .sound]) := by
  intro p hp
  cases p <;> simp_all [Part.Unchanged]

/-- The flag-writing arithmetic changes V[x] and VF only (R158). -/
theorem onlyChanges_flagThenResult (s : State) (x : Reg) (f r : Byte) :
    OnlyChanges s (s.flagThenResult x f r) (· ∈ [.reg x, .reg 15]) :=
  ((onlyChanges_setReg s VF f).mono (by simp_all [VF])).trans ((onlyChanges_setReg _ x r).mono (by simp_all))

/-- Storing changes the stored bytes only (R56). -/
theorem onlyChanges_storeBytes (s : State) (a : Nat) (bs : List Byte) :
    OnlyChanges s (s.storeBytes a bs) fun p => ∃ k, k < bs.length ∧ p = .byte (a + k) := by
  intro p hp
  cases p with
  | byte c =>
    refine State.storeBytes_byte_outside s ?_
    by_contra hc
    exact hp ⟨c - a, by omega, by congr 1; omega⟩
  | _ => rfl

/-- A block load changes the registers below the count only (R195). -/
theorem onlyChanges_loadRegs (s : State) (base count : Nat) :
    OnlyChanges s (s.loadRegs base count) fun p => ∃ r : Reg, r.val < count ∧ p = .reg r := by
  obtain ⟨hreg, v', hv⟩ := State.loadRegs_spec s base count
  intro p hp
  cases p with
  | reg r =>
    have hr : ¬ r.val < count := fun h => hp ⟨r, h, rfl⟩
    simp [Part.Unchanged, hreg r, hr]
  | _ => rw [hv]; rfl

theorem onlyChanges_stepI (s : State) (x : Reg) : OnlyChanges s (s.stepI x) (· ∈ [.iReg]) := by
  rcases State.stepI_cases s x with ⟨_, h⟩ | ⟨_, h⟩ <;> rw [h]
  · exact OnlyChanges.refl s _
  · exact onlyChanges_setI s _

/-- A new display changes cells and the redraw output only (R116). -/
theorem onlyChanges_setDisplay (s : State) (d : Display) :
    OnlyChanges s (s.setDisplay d) fun p => p = .redraw ∨ ∃ px py, p = .pixel px py ∧
      d.pixel px py ≠ s.display.pixel px py := by
  intro p hp
  cases p with
  | pixel px py =>
    by_contra hc
    exact hp (Or.inr ⟨px, py, rfl, hc⟩)
  | redraw => exact absurd (Or.inl rfl) hp
  | _ => rfl

end Sys2Proof.Machine
end

