-- ==== Sys2Proof/Laws/PerInstr.lean ====
section
/-! SUPPORT. The law made per instruction: the top nibble of the encoded word is the opcode family of R85. -/

namespace Sys2Proof

/-- The opcode family of each row of R85. -/
def Instr.family : Instr → BitVec 4
  | .cls | .ret | .nop => 0x0
  | .jp _ => 0x1
  | .call _ => 0x2
  | .seImm _ _ => 0x3
  | .sneImm _ _ => 0x4
  | .seReg _ _ => 0x5
  | .ldImm _ _ => 0x6
  | .addImm _ _ => 0x7
  | .ldReg _ _ | .orReg _ _ | .andReg _ _ | .xorReg _ _ | .addReg _ _ => 0x8
  | .sub _ _ | .shr _ _ | .subn _ _ | .shl _ _ => 0x8
  | .sneReg _ _ => 0x9
  | .ldI _ => 0xA
  | .jpOff _ => 0xB
  | .rnd _ _ => 0xC
  | .drw _ _ _ => 0xD
  | .skp _ | .sknp _ => 0xE
  | .ldFromDt _ | .keyWait _ | .ldDt _ | .ldSt _ | .addI _ | .ldF _ | .bcd _ | .store _ | .load _ => 0xF

namespace Laws.EncodeFamily

/-- The word an instruction encodes to belongs to the family R85 gives its row. -/
def Statement (i : Instr) : Prop := opField (encode i) = i.family

theorem cls : Statement .cls := rfl
theorem ret : Statement .ret := rfl
theorem jp (nnn : Addr12) : Statement (.jp nnn) := opField_packNNN _ _
theorem call (nnn : Addr12) : Statement (.call nnn) := opField_packNNN _ _
theorem seImm (x : Reg) (nn : Byte) : Statement (.seImm x nn) := opField_packXNN _ _ _
theorem sneImm (x : Reg) (nn : Byte) : Statement (.sneImm x nn) := opField_packXNN _ _ _
theorem seReg (x y : Reg) : Statement (.seReg x y) := opField_packXYN _ _ _ _
theorem ldImm (x : Reg) (nn : Byte) : Statement (.ldImm x nn) := opField_packXNN _ _ _
theorem addImm (x : Reg) (nn : Byte) : Statement (.addImm x nn) := opField_packXNN _ _ _
theorem ldReg (x y : Reg) : Statement (.ldReg x y) := opField_packXYN _ _ _ _
theorem orReg (x y : Reg) : Statement (.orReg x y) := opField_packXYN _ _ _ _
theorem andReg (x y : Reg) : Statement (.andReg x y) := opField_packXYN _ _ _ _
theorem xorReg (x y : Reg) : Statement (.xorReg x y) := opField_packXYN _ _ _ _
theorem addReg (x y : Reg) : Statement (.addReg x y) := opField_packXYN _ _ _ _
theorem sub (x y : Reg) : Statement (.sub x y) := opField_packXYN _ _ _ _
theorem shr (x y : Reg) : Statement (.shr x y) := opField_packXYN _ _ _ _
theorem subn (x y : Reg) : Statement (.subn x y) := opField_packXYN _ _ _ _
theorem shl (x y : Reg) : Statement (.shl x y) := opField_packXYN _ _ _ _
theorem sneReg (x y : Reg) : Statement (.sneReg x y) := opField_packXYN _ _ _ _
theorem ldI (nnn : Addr12) : Statement (.ldI nnn) := opField_packNNN _ _
theorem jpOff (nnn : Addr12) : Statement (.jpOff nnn) := opField_packNNN _ _
theorem rnd (x : Reg) (nn : Byte) : Statement (.rnd x nn) := opField_packXNN _ _ _
theorem drw (x y : Reg) (n : Nat) : Statement (.drw x y n) := opField_packXYN _ _ _ _
theorem skp (x : Reg) : Statement (.skp x) := opField_packXNN _ _ _
theorem sknp (x : Reg) : Statement (.sknp x) := opField_packXNN _ _ _
theorem ldFromDt (x : Reg) : Statement (.ldFromDt x) := opField_packXNN _ _ _
theorem keyWait (x : Reg) : Statement (.keyWait x) := opField_packXNN _ _ _
theorem ldDt (x : Reg) : Statement (.ldDt x) := opField_packXNN _ _ _
theorem ldSt (x : Reg) : Statement (.ldSt x) := opField_packXNN _ _ _
theorem addI (x : Reg) : Statement (.addI x) := opField_packXNN _ _ _
theorem ldF (x : Reg) : Statement (.ldF x) := opField_packXNN _ _ _
theorem bcd (x : Reg) : Statement (.bcd x) := opField_packXNN _ _ _
theorem store (x : Reg) : Statement (.store x) := opField_packXNN _ _ _
theorem load (x : Reg) : Statement (.load x) := opField_packXNN _ _ _
theorem nop : Statement .nop := rfl

end Laws.EncodeFamily
end Sys2Proof
end

