-- ==== Sys2Proof/Laws/Run.lean ====
section
/-! SUPPORT. Runs of several steps: the two ways to take a run apart, and that they are the host's runs of the core; what the
end-of-run predicate says. -/

namespace Sys2Proof.Machine

@[simp] theorem runSteps_zero (s : State) : runSteps 0 s = .next s := rfl

/-- A run of one step more, first step first. -/
theorem runSteps_succ (count : Nat) (s u : State) :
    runSteps (count + 1) s = .next u ↔ ∃ t, step s = .next t ∧ runSteps count t = .next u := by
  rw [runSteps]
  cases step s <;> simp

/-- A run of one step more, last step last. -/
theorem runSteps_succ_last (count : Nat) (s u : State) :
    runSteps (count + 1) s = .next u ↔ ∃ t, runSteps count s = .next t ∧ step t = .next u := by
  induction count generalizing s with
  | zero => simp [runSteps_succ]
  | succ n ih =>
    rw [runSteps_succ]
    simp only [ih, runSteps_succ]
    constructor
    · rintro ⟨t, ht, v, hv, hu⟩
      exact ⟨v, ⟨t, ht, hv⟩, hu⟩
    · rintro ⟨v, ⟨t, ht, hv⟩, hu⟩
      exact ⟨t, ht, v, hv, hu⟩

/-- A property every completed step keeps holds after every run. -/
theorem runSteps_invariant {P : State → Prop} (hstep : ∀ s t, P s → step s = .next t → P t) {count : Nat} {s u : State}
    (hs : P s) (hrun : runSteps count s = .next u) : P u := by
  induction count generalizing s with
  | zero => cases hrun; exact hs
  | succ n ih =>
    obtain ⟨t, ht, hu⟩ := (runSteps_succ n s u).1 hrun
    exact ih (hstep s t hs ht) hu

theorem hostRun_next (M : Host.Core) {count : Nat} {s t : M.State} (h : M.step s = .next t) :
    M.run (count + 1) s = M.run count t := by
  simp [Host.Core.run, h]

theorem hostRun_fault (M : Host.Core) {count : Nat} {s : M.State} {r : M.Fault} (h : M.step s = .fault r) :
    M.run (count + 1) s = .fault r := by
  simp [Host.Core.run, h]

theorem hostRun_refused (M : Host.Core) {count : Nat} {s : M.State} {r : M.Refusal} (h : M.step s = .refused r) :
    M.run (count + 1) s = .refused r := by
  simp [Host.Core.run, h]

/-- The model's runs are the host's. -/
theorem core_run_eq (count : Nat) (s : State) : Sys2Proof.core.run count s = runSteps count s := by
  induction count generalizing s with
  | zero => rfl
  | succ n ih =>
    cases h : step s with
    | next t => exact (hostRun_next Sys2Proof.core h).trans ((ih t).trans (by rw [runSteps, h]))
    | fault r => exact (hostRun_fault Sys2Proof.core h).trans (by simp only [runSteps, h]; rfl)
    | refused r => exact (hostRun_refused Sys2Proof.core h).trans (by simp only [runSteps, h]; rfl)

/-- All that the end-of-run predicate says (R121). -/
theorem State.endOfRun_iff (s : State) :
    s.endOfRun = true ↔ s.status = .running ∧ s.pc.toNat + 1 ≤ 4095 ∧
      ∃ nnn, decode s.fetchWord = .jp nnn ∧ addrWord nnn = s.pc := by
  cases h : decode s.fetchWord <;> simp [State.endOfRun, State.canFetch, h, and_assoc]

end Sys2Proof.Machine
end

