-- ==== Sys2Proof/Tests/Slice0.lean ====
section
/-! SUPPORT. The model's own tests: ill-formed terms the check refuses, words written out from the encodings of R85, one step on a
small state against the vectors of spec/95_test_vectors.md (T-…, computed there from the rules; the name of each test's vector
stands in its comment), and a witness for the hypotheses of every obligation that has any. -/

namespace Sys2Proof.Tests

open Sys2Proof Sys2Proof.Machine

/-! ### Well-formedness -/

/-- R83: `n` of DRW is a count 0 to 15. -/
theorem test_wf_refuses_height_16 : (Instr.drw 0 0 16).wf = false := by decide
theorem test_wf_accepts_heights : (Instr.drw 15 15 15).wf = true ∧ (Instr.drw 0 0 0).wf = true := by decide
theorem test_wf_accepts_others : (Instr.jp 0xFFF).wf = true ∧ Instr.nop.wf = true ∧ (Instr.load 15).wf = true := by decide

/-! ### Decoding: words written out from R81 and R85, bit by bit for one of each family -/

theorem test_decode_bits :
    decode 0b0000000011100000 = .cls ∧                 -- 00E0
    decode 0b0001101010111100 = .jp 0xABC ∧            -- 1nnn
    decode 0b0011101001000010 = .seImm 10 0x42 ∧       -- 3xnn
    decode 0b1000000100100111 = .subn 1 2 ∧            -- 8xy7
    decode 0b1101111000011111 = .drw 14 1 15 ∧         -- Dxyn
    decode 0b1110001110100001 = .sknp 3 ∧              -- ExA1
    decode 0b1111001000001010 = .keyWait 2 ∧           -- Fx0A
    decode 0b1010001100000001 = .ldI 0x301 := by decide -- Annn

theorem test_decode_control : decode 0x00EE = .ret ∧ decode 0x2300 = .call 0x300 ∧ decode 0xBFFF = .jpOff 0xFFF := by decide
theorem test_decode_skips :
    decode 0x4A42 = .sneImm 10 0x42 ∧ decode 0x5120 = .seReg 1 2 ∧ decode 0x5121 = .seReg 1 2 ∧
    decode 0x912F = .sneReg 1 2 ∧ decode 0xE39E = .skp 3 := by decide
theorem test_decode_arith :
    decode 0x6005 = .ldImm 0 5 ∧ decode 0x7F01 = .addImm 15 1 ∧ decode 0x8120 = .ldReg 1 2 ∧ decode 0x8121 = .orReg 1 2 ∧
    decode 0x8122 = .andReg 1 2 ∧ decode 0x8123 = .xorReg 1 2 ∧ decode 0x81F4 = .addReg 1 15 ∧ decode 0x8125 = .sub 1 2 ∧
    decode 0x8126 = .shr 1 2 ∧ decode 0x8F0E = .shl 15 0 ∧ decode 0xC30F = .rnd 3 0x0F := by decide
theorem test_decode_timers_memory :
    decode 0xF107 = .ldFromDt 1 ∧ decode 0xF015 = .ldDt 0 ∧ decode 0xF018 = .ldSt 0 ∧ decode 0xF11E = .addI 1 ∧
    decode 0xF029 = .ldF 0 ∧ decode 0xF133 = .bcd 1 ∧ decode 0xFF55 = .store 15 ∧ decode 0xFF65 = .load 15 := by decide
/-- T-STP-2, T-STP-9, T-KEY-8, T-ALU-27. -/
theorem test_decode_nop :
    [0x0000, 0x0123, 0x00E1, 0x00FE, 0x8008, 0x800F, 0x8128, 0xE000, 0xE19F, 0xE39F, 0xF000, 0xF166, 0xFFFF].all
      (fun w : Nat => decide (decode (BitVec.ofNat 16 w) = .nop)) = true := by decide
theorem test_decodeBytes :
    decodeBytes [0x60, 0x2A, 0x7F] = .ok (.ldImm 0 0x2A, [0x7F]) ∧ decodeBytes [0x60] = .error .truncated ∧
    decodeBytes [] = .error .truncated := by decide
theorem test_decodeTableWord :
    decodeTableWord 16 0x1204 = some (.jp 0x204) ∧ decodeTableWord 16 0xD125 = some (.drw 1 2 5) := by decide
theorem test_encode :
    encode (.drw 1 2 5) = 0xD125 ∧ encode (.jpOff 0x2F0) = 0xB2F0 ∧ encode (.seReg 1 2) = 0x5120 ∧
    encode (.store 3) = 0xF355 ∧ encode (.shl 1 2) = 0x812E ∧ encode (.call 0x20A) = 0x220A := by decide

/-! ### Helpers -/

/-- The step on the word `w` placed at pc completes and the next state passes `p`. -/
def stepGives (w : Nat) (s : State) (p : State → Bool) : Bool :=
  match step (s.withFetchWord 16 w) with
  | .next t => p t
  | _ => false

/-- The step on the word `w` placed at pc faults with `r`. -/
def stepFaults (w : Nat) (s : State) (r : Fault) : Bool :=
  match step (s.withFetchWord 16 w) with
  | .fault q => decide (q = r)
  | _ => false

/-- The answer is a next state. -/
def isNext (o : StepResult) : Bool :=
  match o with
  | .next _ => true
  | _ => false

theorem exists_next {o : StepResult} (h : isNext o = true) : ∃ t, o = .next t := by
  cases o <;> simp_all [isNext]

/-- Reset with registers set. -/
def regs (l : List (Reg × Byte)) : State := l.foldl (fun s p => s.setReg p.1 p.2) State.reset

/-- `s` with other parameters. -/
def withParams (c : Config) (s : State) : State := { s with config := c }

/-- Every parameter away from its default. -/
def legacy : Config := ⟨0x050, .copyVy, .vx, .increment, some 16⟩

/-- The key `k` is down. -/
def pressed (k : Fin 16) (s : State) : State := { s with keys := s.keys.set k.val true }

/-- The cell is on. -/
def cellOn (px py : Nat) (s : State) : State := { s with display := s.display.flip px py }

/-! ### One step against the vectors -/

/-- T-STP-1. -/
theorem test_step_nop : stepGives 0x0000 ((State.reset.setDt 3).setSt 1)
    (fun t => t.pc == 0x202 && t.dt == 2 && t.st == 0 && !t.redraw && !t.sound) = true := by decide
/-- T-STP-4: pc 4095 is out of range. -/
theorem test_step_fetch_fault : stepFaults 0x0000 (State.reset.setPc 0xFFF) (.memRange 0xFFF 4096) = true := by decide
/-- T-STP-6: an odd address. -/
theorem test_step_odd_pc : stepGives 0x602A (State.reset.setPc 0x201) (fun t => t.reg 0 == 0x2A && t.pc == 0x203) = true := by decide
/-- T-STP-7. -/
theorem test_step_sound : stepGives 0x0000 (State.reset.setSt 2) (fun t => t.st == 1 && t.sound) = true := by decide

/-- T-CTL-1. -/
theorem test_jp : stepGives 0x1ABC State.reset (fun t => t.pc == 0xABC) = true := by decide
/-- T-CTL-4; T-CTL-8, T-CTL-9 with a limit of 1. -/
theorem test_call : stepGives 0x2300 State.reset (fun t => t.pc == 0x300 && t.stack == [0x202]) = true := by decide
theorem test_call_limit :
    stepGives 0x2300 (withParams ⟨0x050, .inPlace, .v0, .unchanged, some 1⟩ State.reset) (fun t => t.stack == [0x202]) = true ∧
    stepFaults 0x2300 (withParams ⟨0x050, .inPlace, .v0, .unchanged, some 1⟩ (State.reset.push 0x400))
      (.stackOverflow 0x200) = true := by decide
/-- T-CTL-5 (0x456 on top). -/
theorem test_ret : stepGives 0x00EE ((State.reset.push 0x123).push 0x456) (fun t => t.pc == 0x456 && t.stack == [0x123]) = true := by
  decide
/-- T-CTL-6, T-CTL-7. -/
theorem test_ret_empty : stepFaults 0x00EE (State.reset.setDt 5) (.stackUnderflow 0x200) = true := by decide
/-- T-CTL-10, T-CTL-13. -/
theorem test_jpOff_v0 : stepGives 0xB2F0 (regs [(0, 0x10), (2, 0x04)]) (fun t => t.pc == 0x300) = true ∧
    stepGives 0xBFFF (regs [(0, 0xFF)]) (fun t => t.pc == 0x10FE) = true := by decide
/-- T-CTL-11. -/
theorem test_jpOff_vx : stepGives 0xB2F0 (withParams legacy (regs [(0, 0x10), (2, 0x04)])) (fun t => t.pc == 0x2F4) = true := by decide

/-- T-SKP-1, T-SKP-2. -/
theorem test_seImm : stepGives 0x3A42 (regs [(10, 0x42)]) (fun t => t.pc == 0x204) = true ∧
    stepGives 0x3A42 (regs [(10, 0x43)]) (fun t => t.pc == 0x202) = true := by decide
/-- T-SKP-3, T-SKP-4. -/
theorem test_sneImm : stepGives 0x4A42 (regs [(10, 0x42)]) (fun t => t.pc == 0x202) = true ∧
    stepGives 0x4A42 (regs [(10, 0x43)]) (fun t => t.pc == 0x204) = true := by decide
/-- T-SKP-6, T-SKP-7. -/
theorem test_seReg : stepGives 0x5120 (regs [(1, 9), (2, 8)]) (fun t => t.pc == 0x202) = true ∧
    stepGives 0x5121 (regs [(1, 9), (2, 9)]) (fun t => t.pc == 0x204) = true := by decide
/-- T-SKP-8, T-SKP-10. -/
theorem test_sneReg : stepGives 0x9120 (regs [(1, 9), (2, 9)]) (fun t => t.pc == 0x202) = true ∧
    stepGives 0x912F (regs [(1, 9), (2, 8)]) (fun t => t.pc == 0x204) = true := by decide
/-- T-SKP-13: a taken skip at the top of memory. -/
theorem test_skip_at_top : stepGives 0x3000 (State.reset.setPc 0xFFE) (fun t => t.pc == 0x1002) = true := by decide
/-- T-KEY-1, T-KEY-2, T-KEY-5. -/
theorem test_skp : stepGives 0xE39E (pressed 15 (regs [(3, 15)])) (fun t => t.pc == 0x204) = true ∧
    stepGives 0xE39E (regs [(3, 15)]) (fun t => t.pc == 0x202) = true ∧
    stepFaults 0xE39E (regs [(3, 16)]) (.keyRange 0x200 16) = true := by decide
/-- T-KEY-3, T-KEY-4, T-KEY-6. -/
theorem test_sknp : stepGives 0xE3A1 (pressed 15 (regs [(3, 15)])) (fun t => t.pc == 0x202) = true ∧
    stepGives 0xE3A1 (regs [(3, 15)]) (fun t => t.pc == 0x204) = true ∧
    stepFaults 0xE3A1 (regs [(3, 255)]) (.keyRange 0x200 255) = true := by decide
/-- T-KEY-9, T-KEY-11. -/
theorem test_keyWait_up : stepGives 0xF30A (pressed 8 ((regs [(3, 7)]).setDt 10))
    (fun t => t.pc == 0x200 && t.dt == 9 && t.reg 3 == 7) = true := by decide
/-- T-KEY-10, T-KEY-7. -/
theorem test_keyWait_down : stepGives 0xF30A (pressed 7 ((regs [(3, 7)]).setDt 10))
    (fun t => t.pc == 0x202 && t.dt == 9 && t.reg 3 == 7) = true ∧
    stepFaults 0xF30A (regs [(3, 16)]) (.keyRange 0x200 16) = true := by decide

/-- T-ALU-31. -/
theorem test_ldImm : stepGives 0x6005 State.reset (fun t => t.reg 0 == 5) = true := by decide
/-- T-ALU-1, T-ALU-2. -/
theorem test_addImm : stepGives 0x71FF (regs [(1, 1)]) (fun t => t.reg 1 == 0 && t.reg 15 == 0) = true ∧
    stepGives 0x7F01 (regs [(15, 0xFF)]) (fun t => t.reg 15 == 0) = true := by decide
/-- T-ALU-26. -/
theorem test_ldReg : stepGives 0x8120 (regs [(1, 0xF0), (2, 0x3C)]) (fun t => t.reg 1 == 0x3C && t.reg 2 == 0x3C) = true := by decide
/-- T-ALU-22, T-ALU-23, T-ALU-24. -/
theorem test_orReg : stepGives 0x8121 (regs [(1, 0xF0), (2, 0x0F), (15, 0x55)])
    (fun t => t.reg 1 == 0xFF && t.reg 15 == 0x55) = true := by decide
theorem test_andReg : stepGives 0x8122 (regs [(1, 0xF0), (2, 0x3C), (15, 0x55)])
    (fun t => t.reg 1 == 0x30 && t.reg 15 == 0x55) = true := by decide
theorem test_xorReg : stepGives 0x8123 (regs [(1, 0xF0), (2, 0x3C), (15, 0x55)])
    (fun t => t.reg 1 == 0xCC && t.reg 15 == 0x55) = true := by decide
/-- T-ALU-5; T-ALU-6 (`x = F`), T-ALU-7 (`y = F`). -/
theorem test_addReg : stepGives 0x8124 (regs [(1, 200), (2, 100)]) (fun t => t.reg 1 == 0x2C && t.reg 15 == 1) = true := by decide
theorem test_addReg_vf : stepGives 0x8F14 (regs [(15, 0xF0), (1, 0x20)]) (fun t => t.reg 15 == 0x10) = true ∧
    stepGives 0x81F4 (regs [(1, 0xFF), (15, 1)]) (fun t => t.reg 1 == 0 && t.reg 15 == 1) = true := by decide
/-- T-ALU-11, T-ALU-10, T-ALU-12. -/
theorem test_sub : stepGives 0x8125 (regs [(1, 0x03), (2, 0x0A)]) (fun t => t.reg 1 == 0xF9 && t.reg 15 == 0) = true ∧
    stepGives 0x8125 (regs [(1, 7), (2, 7)]) (fun t => t.reg 1 == 0 && t.reg 15 == 1) = true := by decide
theorem test_sub_vf : stepGives 0x8F15 (regs [(15, 5), (1, 3)]) (fun t => t.reg 15 == 2) = true := by decide
/-- T-ALU-13, T-ALU-14. -/
theorem test_subn : stepGives 0x8127 (regs [(1, 0x03), (2, 0x0A)]) (fun t => t.reg 1 == 0x07 && t.reg 15 == 1) = true ∧
    stepGives 0x8127 (regs [(1, 0x0A), (2, 0x03)]) (fun t => t.reg 1 == 0xF9 && t.reg 15 == 0) = true := by decide
/-- T-ALU-16, T-ALU-17, T-ALU-21. -/
theorem test_shr : stepGives 0x8126 (regs [(1, 5), (2, 0xFE)]) (fun t => t.reg 1 == 2 && t.reg 15 == 1 && t.reg 2 == 0xFE) = true ∧
    stepGives 0x8F06 (regs [(15, 3)]) (fun t => t.reg 15 == 1) = true := by decide
theorem test_shr_copyVy : stepGives 0x8126 (withParams legacy (regs [(1, 5), (2, 0xFE)]))
    (fun t => t.reg 1 == 0x7F && t.reg 15 == 0 && t.reg 2 == 0xFE) = true := by decide
/-- T-ALU-18, T-ALU-19, T-ALU-20. -/
theorem test_shl : stepGives 0x812E (regs [(1, 0x81), (2, 1)]) (fun t => t.reg 1 == 2 && t.reg 15 == 1) = true ∧
    stepGives 0x8F0E (regs [(15, 0xC0)]) (fun t => t.reg 15 == 0x80) = true := by decide
theorem test_shl_copyVy : stepGives 0x812E (withParams legacy (regs [(1, 0x81), (2, 1)]))
    (fun t => t.reg 1 == 2 && t.reg 15 == 0) = true := by decide
/-- T-ALU-28 and T-ALU-30 over the free byte: whatever was drawn, the result is that byte under the mask (R162). -/
theorem test_rnd (s : State) : ∃ t, exec (.rnd 1 0x0F) s = .next t ∧ t.reg 1 = Config.freeRnd s.rndIndex &&& 0x0F :=
  ⟨_, rfl, by simp [State.rndByte]⟩

/-- T-TMR-5. -/
theorem test_ldFromDt : stepGives 0xF107 (State.reset.setDt 2) (fun t => t.reg 1 == 2 && t.dt == 1) = true := by decide
/-- T-TMR-1, T-TMR-3. -/
theorem test_ldDt : stepGives 0xF015 (regs [(0, 5)]) (fun t => t.dt == 4) = true ∧
    stepGives 0xF015 (State.reset.setDt 9) (fun t => t.dt == 0) = true := by decide
/-- T-TMR-8, T-TMR-9. -/
theorem test_ldSt : stepGives 0xF018 (regs [(0, 2)]) (fun t => t.st == 1 && t.sound) = true ∧
    stepGives 0xF018 (regs [(0, 1)]) (fun t => t.st == 0 && !t.sound) = true := by decide

/-- T-DSP-1. -/
theorem test_cls : stepGives 0x00E0 (cellOn 0 0 (cellOn 63 31 (regs [(15, 1)])))
    (fun t => !t.display.pixel 0 0 && !t.display.pixel 63 31 && t.reg 15 == 1 && t.redraw) = true := by decide
/-- T-DSP-11: a collision at (1, 0). -/
theorem test_drw_collision : stepGives 0xD121 (cellOn 1 0 (cellOn 5 0 ((State.reset.setI 0x300).storeBytes 0x300 [0xF0])))
    (fun t => t.display.pixel 0 0 && !t.display.pixel 1 0 && t.display.pixel 2 0 && t.display.pixel 3 0 &&
      !t.display.pixel 4 0 && t.display.pixel 5 0 && t.reg 15 == 1 && t.redraw) = true := by decide
/-- T-DSP-6 (clipped at the right edge), T-DSP-9 (no check when `n = 0`), T-DSP-14 (out of range). -/
theorem test_drw_edges :
    stepGives 0xD121 ((regs [(1, 60), (2, 5)]).setI 0x300 |>.storeBytes 0x300 [0xFF])
      (fun t => t.display.pixel 60 5 && t.display.pixel 63 5 && !t.display.pixel 0 5 && t.reg 15 == 0) = true ∧
    stepGives 0xD120 ((regs [(15, 1)]).setI 0x1000) (fun t => t.reg 15 == 0 && t.redraw) = true ∧
    stepFaults 0xD002 (State.reset.setI 0xFFF) (.memRange 0x200 4096) = true := by decide

/-- T-MEM-1. -/
theorem test_ldI : stepGives 0xAFFF State.reset (fun t => t.iReg == 0x0FFF) = true := by decide
/-- T-MEM-11, T-MEM-12. -/
theorem test_addI : stepGives 0xF11E ((regs [(1, 1)]).setI 0xFFF) (fun t => t.iReg == 0x1000 && t.reg 15 == 0) = true ∧
    stepGives 0xF11E ((regs [(1, 1)]).setI 0xFFFF) (fun t => t.iReg == 0) = true := by decide
/-- T-MEM-4, T-MEM-6. -/
theorem test_ldF : stepGives 0xF029 (regs [(0, 15)]) (fun t => t.iReg == 0x09B) = true ∧
    stepGives 0xF029 (regs [(0, 255)]) (fun t => t.iReg == 0x54B) = true := by decide
/-- T-MEM-8 (254), T-MEM-10. -/
theorem test_bcd : stepGives 0xF133 ((regs [(1, 254)]).setI 0x300)
      (fun t => t.byte 0x300 == 2 && t.byte 0x301 == 5 && t.byte 0x302 == 4 && t.byte 0x303 == 0) = true ∧
    stepFaults 0xF133 ((regs [(1, 255)]).setI 0xFFE) (.memRange 0x200 4096) = true := by decide
/-- T-MEM-13, T-MEM-14 over three registers, T-MEM-18. -/
theorem test_store : stepGives 0xF255 ((regs [(0, 0x10), (1, 0x11), (2, 0x12), (3, 0x13)]).setI 0x400)
      (fun t => t.byte 0x400 == 0x10 && t.byte 0x402 == 0x12 && t.byte 0x403 == 0 && t.byte 0x3FF == 0 && t.iReg == 0x400) = true ∧
    stepFaults 0xF355 (State.reset.setI 0xFFD) (.memRange 0x200 4096) = true := by decide
theorem test_store_increment : stepGives 0xF255 (withParams legacy ((regs [(0, 0x10)]).setI 0x400))
    (fun t => t.byte 0x400 == 0x10 && t.iReg == 0x403) = true := by decide
/-- T-MEM-19, T-MEM-20 over two registers, T-MEM-23. -/
theorem test_load : stepGives 0xF165 (((regs [(2, 0x77)]).setI 0x400).storeBytes 0x400 [0xA0, 0xA1, 0xA2])
      (fun t => t.reg 0 == 0xA0 && t.reg 1 == 0xA1 && t.reg 2 == 0x77 && t.iReg == 0x400) = true ∧
    stepFaults 0xF165 (State.reset.setI 0xFFF) (.memRange 0x200 4096) = true := by decide
theorem test_load_increment : stepGives 0xF165 (withParams legacy ((State.reset.setI 0x400).storeBytes 0x400 [0xA0, 0xA1]))
    (fun t => t.reg 1 == 0xA1 && t.iReg == 0x402) = true := by decide

/-- T-RST-1, T-RST-2: the font at both ends of FONT_BASE's range. -/
theorem test_reset_font :
    (State.resetWith { Config.default with fontBase := 0 }).byte 0 = 0xF0 ∧ State.reset.byte 0x04F = 0 ∧ State.reset.byte 0x050 = 0xF0 ∧
    State.reset.byte 0x09B = 0xF0 ∧ State.reset.byte 0x09F = 0x80 ∧ State.reset.byte 0x0A0 = 0 ∧
    (State.resetWith { Config.default with fontBase := 0x1B0 }).byte 0x1FF = 0x80 := by decide

/-- R121's example predicate: 1nnn at nnn, also at the last address that can be fetched; not another target, not out of range. -/
theorem test_endOfRun : (State.reset.withFetchWord 16 0x1200).endOfRun = true ∧
    ((State.reset.setPc 0xFFE).withFetchWord 16 0x1FFE).endOfRun = true ∧
    (State.reset.withFetchWord 16 0x1202).endOfRun = false ∧ (State.reset.withFetchWord 16 0x2200).endOfRun = false ∧
    ((State.reset.setPc 0xFFF).storeBytes 0xFFF [0x1F]).endOfRun = false := by decide

/-! ### Witnesses: concrete states and operands that meet each statement's hypotheses -/

/-- The word `w` placed at pc. -/
def placed (w : Nat) (s : State) : State := s.withFetchWord 16 w

/-- DecodeEncodeRoundTrip, EncodeDecodeCanonical (both arms). -/
theorem witness_roundTrip : ∃ i : Instr, i.wf = true ∧ i = .drw 15 0 15 := ⟨_, by decide, rfl⟩
theorem witness_encodeDecode : decode 0x512F ≠ .nop ∧ opField 0x512F = 0x5 ∧ decode 0x9120 ≠ .nop ∧ opField 0x9120 = 0x9 ∧
    decode 0x1FFF ≠ .nop ∧ opField 0x1FFF ≠ 0x5 ∧ opField 0x1FFF ≠ 0x9 := by decide
/-- NopWordClasses: a word of each class and one of none. -/
theorem witness_nopClasses : decode 0x0FFF = .nop ∧ decode 0x8FFF = .nop ∧ decode 0xEF9F = .nop ∧ decode 0xFF66 = .nop ∧
    decode 0x00EE ≠ .nop := by decide
/-- StepRunsDecodedInstruction: the last word that can be fetched, completing and faulting, and the first pc out of range. -/
theorem witness_stepRuns : ∃ s : State, s.status = .running ∧ s.pc.toNat + 1 = 4095 ∧
    decodeBytes [s.byte s.pc.toNat, s.byte (s.pc.toNat + 1)] = .ok (.jp 0x123, []) ∧
    isNext (exec (.jp 0x123) s.beginExecute) = true := ⟨placed 0x1123 (State.reset.setPc 0xFFE), by decide⟩
theorem witness_stepRuns_fault : ∃ s : State, s.status = .running ∧ s.pc.toNat + 1 ≤ 4095 ∧
    decodeBytes [s.byte s.pc.toNat, s.byte (s.pc.toNat + 1)] = .ok (.ret, []) ∧
    exec .ret s.beginExecute = .fault (.stackUnderflow 0x200) := ⟨placed 0x00EE State.reset, by decide, by decide, by decide, rfl⟩
theorem witness_stepRuns_outside : ∃ s : State, s.status = .running ∧ s.pc.toNat + 1 = 4096 :=
  ⟨State.reset.setPc 0xFFF, by decide⟩
/-- FaultedIsTerminal: a faulted state and a host move that is taken; a running state whose step faults. -/
theorem witness_faulted : ∃ s t : State, s.status = .faulted (.stackUnderflow 0x200) ∧ hostMove (.setKey 15 true) s = .ok t :=
  ⟨{ State.reset with status := .faulted (.stackUnderflow 0x200) }, _, rfl, rfl⟩
theorem witness_stepFaults : ∃ s : State, s.status = .running ∧ step s = .fault (.memRange 0xFFF 4096) :=
  ⟨State.reset.setPc 0xFFF, by decide, rfl⟩
/-- The statements about every completed step (TimersTickEveryStep to SpecialStateWriters, StepKeepsInvariant): a step that completes, for
each instruction they name. -/
theorem witness_steps_complete :
    [0x0000, 0xF015, 0xF018, 0x00E0, 0xD121, 0x2300, 0xA123, 0xF11E, 0xF029, 0xF133, 0xF155, 0xF165, 0xC1FF].all
      (fun w => isNext (step (placed w (withParams legacy (regs [(0, 1), (1, 2)]))))) = true := by decide
theorem witness_ret_completes : ∃ s t : State, step s = .next t ∧ decode s.fetchWord = .ret ∧ t.stack ≠ s.stack :=
  ⟨placed 0x00EE (State.reset.push 0x300), _, rfl, by decide, by decide⟩
/-- MemoryChangesOnlyByBcdAndStore: the last byte each may store to is changed. -/
theorem witness_memory_changes :
    (stepGives 0xF133 ((regs [(1, 255)]).setI 0xFFD) fun t => t.byte 0xFFF == 5) = true ∧
    (stepGives 0xF155 ((regs [(1, 7)]).setI 0xFFE) fun t => t.byte 0xFFF == 7) = true ∧ State.reset.byte 0xFFF = 0 := by decide
/-- SpecialStateWriters: a draw turns a cell on; the block transfers move I when MEM_I_MODE is increment. -/
theorem witness_special_changes :
    (stepGives 0xD121 (State.reset.setI 0x50) fun t => t.display.pixel 3 0) = true ∧ State.reset.display.pixel 3 0 = false ∧
    (stepGives 0xF055 (withParams legacy State.reset) fun t => t.iReg == 1) = true := by decide
/-- RegistersWrittenPerTable: the register next above the last one LOAD writes. -/
theorem witness_registersWritten : ∃ s : State, isNext (exec (.load 14) s) = true ∧ writesReg (.load 14) 15 = false :=
  ⟨State.reset, by decide⟩
/-- RegistersReadPerTable: two register files that agree on V1 and V2 only. -/
theorem witness_registersRead : ∃ (s : State) (w : Vector Byte 16), w ≠ s.v ∧ isNext (exec (.addReg 1 2) s) = true ∧
    ∀ r : Reg, readsReg s.config (.addReg 1 2) r = true → ({ s with v := w } : State).reg r = s.reg r :=
  ⟨State.reset, (regs [(0, 9), (15, 9)]).v, by decide⟩
/-- CallPushesAdvancedPc: below the limit, at it, and without one. -/
theorem witness_call : Config.default.stackLimit ≠ some State.reset.stack.length ∧
    (withParams legacy State.reset).config.stackLimit ≠ some (withParams legacy State.reset).stack.length ∧
    (∃ s : State, s.config.stackLimit = some s.stack.length ∧ s.stack.length = 1) :=
  ⟨by decide, by decide, { State.reset with stack := [0x202], config := { Config.default with stackLimit := some 1 } }, rfl, rfl⟩
/-- RetPopsIntoPc: a stack of one entry, the last; and the empty one. -/
theorem witness_ret : (State.reset.push 0x1000).stack = 0x1000 :: [] ∧ State.reset.stack = [] := by decide
/-- CallThenReturnComesBack (T-CTL-12). -/
theorem witness_callThenReturn : ∃ s t : State, step s = .next t ∧ decode s.fetchWord = .call 0x204 ∧
    (0x204 : Addr12).toNat + 1 ≤ 4095 ∧ decode t.fetchWord = .ret :=
  ⟨State.reset.storeBytes 0x200 [0x22, 0x04, 0x00, 0x00, 0x00, 0xEE], _, rfl, by decide, by decide, by decide⟩
/-- IndexedJumpAddsOffset: both modes, and the register of an address. -/
theorem witness_indexedJump : State.reset.config.jumpMode = .v0 ∧ (withParams legacy State.reset).config.jumpMode = .vx ∧
    (15 : Reg).val = (0xFFF : Addr12).toNat / 256 := by decide
/-- KeySkips, KeyWaitRewindsWhileUp: the last key and the first index that names none. -/
theorem witness_keys : ((regs [(3, 15)]).reg 3).toNat = (15 : Fin 16).val ∧ ((regs [(3, 16)]).reg 3).toNat > 15 ∧
    ((regs [(3, 255)]).reg 3).toNat > 15 := by decide
/-- KeyWaitRepeatsUntilPressed (T-KEY-12): after two waiting steps the host presses the key. -/
theorem witness_keyWait : ∃ s : State, s.status = .running ∧ s.pc.toNat + 1 ≤ 4095 ∧ decode s.fetchWord = .keyWait 3 ∧
    (s.reg 3).toNat = (7 : Fin 16).val ∧ s.key 7 = false ∧ isNext (runSteps 2 s) = true := ⟨placed 0xF30A (regs [(3, 7)]), by decide⟩
theorem witness_keyPress : ∃ t u : State, setKey 7 true t = .ok u := ⟨State.reset, _, rfl⟩
/-- AddSetsCarry, SubtractSetsNoBorrow, ShiftsSetShiftedOutBit: a destination that is not VF, both shift modes. -/
theorem witness_flagDestination : (14 : Reg) ≠ 15 := by decide
theorem witness_shifts : ∃ (s : State) (b : Byte), (s.config.shiftMode = .inPlace → b = s.reg 1) ∧
    (s.config.shiftMode = .copyVy → b = s.reg 2) ∧ s.config.shiftMode = .inPlace ∧ b ≠ s.reg 2 :=
  ⟨regs [(1, 5), (2, 0xFE)], 5, by decide⟩
theorem witness_shifts_copyVy : ∃ (s : State) (b : Byte), (s.config.shiftMode = .inPlace → b = s.reg 1) ∧
    (s.config.shiftMode = .copyVy → b = s.reg 2) ∧ s.config.shiftMode = .copyVy ∧ b ≠ s.reg 1 :=
  ⟨withParams legacy (regs [(1, 5), (2, 0xFE)]), 0xFE, by decide⟩
/-- NopIsAFullStep: at the last word that can be fetched. -/
theorem witness_nop : ∃ s : State, s.status = .running ∧ s.pc.toNat + 1 = 4095 ∧ decode s.fetchWord = .nop :=
  ⟨State.reset.setPc 0xFFE, by decide⟩
/-- DrawXorsSpriteAndReportsCollision: no row with I above memory, fifteen rows up to the last byte; with and without a collision. -/
theorem witness_draw : ((0 : Nat) = 0 ∨ (State.reset.setI 0xFFFF).iReg.toNat + 0 ≤ 4096) ∧
    (State.reset.setI 0xFF1).iReg.toNat + 15 = 4096 := by decide
theorem witness_draw_collision : ∃ s : State, s.iReg.toNat + 1 ≤ 4096 ∧ s.sprite 1 2 1 3 0 = true ∧ s.display.pixel 3 0 = true :=
  ⟨cellOn 3 0 (State.reset.setI 0x50), by decide⟩
theorem witness_draw_noCollision : ∃ s : State, s.iReg.toNat + 1 ≤ 4096 ∧
    ¬ ∃ px py, s.sprite 1 2 1 px py = true ∧ s.display.pixel px py = true :=
  ⟨State.reset.setI 0x50, by decide, fun ⟨px, py, _, h⟩ => absurd h (by
    show Display.clear.pixel px py ≠ true
    simp [Display.pixel, Display.clear])⟩
/-- DrawTwiceRestores: the coordinates are kept, also when the column is VF and the draw collides with nothing; a sprite bit on a cell that
was off, and none. -/
theorem witness_drawTwice : ∃ s t : State, exec (.drw 15 2 1) s = .next t ∧ (t.reg 15).toNat % 64 = (s.reg 15).toNat % 64 ∧
    (t.reg 2).toNat % 32 = (s.reg 2).toNat % 32 ∧ s.sprite 15 2 1 3 0 = true ∧ s.display.pixel 3 0 = false :=
  ⟨State.reset.setI 0x50, _, rfl, by decide⟩
theorem witness_drawTwice_empty : ∃ s t : State, exec (.drw 1 2 0) s = .next t ∧ (t.reg 1).toNat % 64 = (s.reg 1).toNat % 64 ∧
    (t.reg 2).toNat % 32 = (s.reg 2).toNat % 32 ∧ ¬ ∃ px py, s.sprite 1 2 0 px py = true ∧ s.display.pixel px py = false :=
  ⟨State.reset, _, rfl, by decide, by decide, fun ⟨px, py, h, _⟩ => by simp [State.sprite, spriteBit] at h; omega⟩
/-- DrawAfterClearIsTheSprite. -/
theorem witness_drawAfterClear : ∃ s t : State, exec .cls s = .next t ∧ s.iReg.toNat + 5 ≤ 4096 :=
  ⟨State.reset.setI 0x82, _, rfl, by decide⟩
/-- TimersCountDownToZero: two steps of NOP, past zero. -/
theorem witness_countDown : ∃ s t : State, runSteps 2 s = .next t ∧ s.dt = 1 ∧
    ∀ j < 2, ∀ (u : State) (x : Reg), runSteps j s = .next u → decode u.fetchWord ≠ .ldDt x ∧ decode u.fetchWord ≠ .ldSt x := by
  refine ⟨State.reset.setDt 1, _, rfl, rfl, fun j hj u x hu => ?_⟩
  have hnop : decode u.fetchWord = .nop := by
    match j, hj with
    | 0, _ => cases hu; decide
    | 1, _ => cases hu; decide
  simp [hnop]
/-- AddressRegisterWriters, ResetState, ResetMeetsInvariant: legal parameters at both ends of FONT_BASE's range. -/
theorem witness_legal : Config.default.legal ∧ Config.legal { Config.default with fontBase := 0 } ∧
    Config.legal { legacy with fontBase := 0x1B0, stackLimit := some 1 } := by decide
theorem witness_reset_outsideFont : (0x1AF : Nat) < 0x1B0 ∨ 0x1B0 + 80 ≤ 0x1AF := by decide
/-- BcdStoresDigits, StoreCopiesRegistersToMemory, LoadCopiesMemoryToRegisters: the last extent that lies in memory, both modes. -/
theorem witness_bcd : ∃ s : State, Memory.wf s.config.fontBase s.mem = true ∧ s.iReg.toNat + 2 = 4095 :=
  ⟨State.reset.setI 0xFFD, by decide⟩
theorem witness_block : ∃ s : State, Memory.wf s.config.fontBase s.mem = true ∧ s.iReg.toNat + (15 : Reg).val = 4095 ∧
    s.config.memIMode = .unchanged := ⟨(State.reset.storeBytes 0xFFF [1]).setI 0xFF0, by decide⟩
theorem witness_block_increment : ∃ s : State, Memory.wf s.config.fontBase s.mem = true ∧ s.iReg.toNat + (0 : Reg).val = 4095 ∧
    s.config.memIMode = .increment := ⟨withParams legacy (State.reset.setI 0xFFF), by decide⟩
/-- StoreIsSeenByNextFetch (program P5's fourth step). -/
theorem witness_storeSeen : ∃ s t : State, step s = .next t ∧ decode s.fetchWord = .store 1 ∧ 1 ≤ (1 : Reg).val ∧
    s.iReg = s.pc + 2 ∧ Memory.wf s.config.fontBase s.mem = true :=
  ⟨placed 0xF155 ((regs [(0, 0x12), (1, 0x08)]).setI 0x202), _, rfl, by decide⟩
/-- ExecFaultsExactlyPerTable: each fault of R200 at the first value that raises it, and the last that does not. -/
theorem witness_faults :
    faultOf .ret State.reset = some (.stackUnderflow 0x1FE) ∧ faultOf (.skp 3) (regs [(3, 16)]) = some (.keyRange 0x1FE 16) ∧
    faultOf (.sknp 3) (regs [(3, 15)]) = none ∧ faultOf (.bcd 1) (State.reset.setI 0xFFE) = some (.memRange 0x1FE 4096) ∧
    faultOf (.bcd 1) (State.reset.setI 0xFFD) = none ∧ faultOf (.load 15) (State.reset.setI 0xFF1) = some (.memRange 0x1FE 4096) ∧
    faultOf (.store 15) (State.reset.setI 0xFF0) = none ∧ faultOf (.drw 0 0 0) (State.reset.setI 0xFFFF) = none ∧
    faultOf (.drw 0 0 1) (State.reset.setI 0x1001) = some (.memRange 0x1FE 0x1001) ∧
    faultOf (.call 0) { State.reset with config := { Config.default with stackLimit := some 0 } } =
      some (.stackOverflow 0x1FE) := by decide
/-- StepCompletesExactlyWhenSafe: a state on each side. -/
theorem witness_safe : SafeStep State.reset ∧ ¬ SafeStep (placed 0x00EE State.reset) ∧ ¬ SafeStep (State.reset.setPc 0xFFF) := by
  refine ⟨⟨rfl, by decide, by decide⟩, fun h => absurd h.2.2 (by decide), fun h => absurd h.2.1 (by decide)⟩
/-- ProgramLoadPort: the longest image that fits, one byte more, and a closed port. -/
theorem witness_load : Memory.wf State.reset.config.fontBase State.reset.mem = true ∧ State.reset.loadOpen = true ∧
    (List.replicate 3584 (0xAB : Byte)).length ≤ 3584 ∧ (List.replicate 3585 (0xAB : Byte)).length > 3584 ∧
    State.reset.beginExecute.loadOpen = false :=
  ⟨rfl, rfl, Nat.le_of_eq List.length_replicate, Nat.le_of_eq List.length_replicate.symm, rfl⟩
/-- KeyAndDisplayPorts: the indices and coordinates at both sides of the bounds. -/
theorem witness_ports : (16 : Nat) > 15 ∧ ((63 : Nat) ≤ 63 ∧ (31 : Nat) ≤ 31) ∧ ((64 : Nat) > 63 ∨ (0 : Nat) > 31) ∧
    ((0 : Nat) > 63 ∨ (32 : Nat) > 31) := by decide
/-- StepKeepsInvariant, PortsKeepInvariant: states that meet the invariant at its bounds. -/
theorem witness_inv : State.reset.Inv := ⟨by decide, by decide, by decide, fun _ h => absurd h List.not_mem_nil, by decide⟩
theorem witness_inv_bounds : (withParams legacy ((State.reset.setPc 0x10FE).push 0x1000)).Inv :=
  ⟨by decide, by decide, by decide, fun w h => by rw [List.mem_singleton.1 h]; decide, by decide⟩
theorem witness_inv_step : ∃ s t : State, s.Inv ∧ step s = .next t :=
  ⟨placed 0xF155 (State.reset.setI 0xFFE), _, ⟨by decide, by decide, by decide, fun _ h => absurd h List.not_mem_nil, by decide⟩, rfl⟩
theorem witness_inv_ports : ∃ s t u : State, s.Inv ∧ loadProgram [0x12, 0x00] s = .ok t ∧ setKey 15 true s = .ok u :=
  ⟨State.reset, _, _, witness_inv, rfl, rfl⟩
/-- ZeroedMemoryRunsToTheTop: the last word, and no step at all. -/
theorem witness_zeroed : ∃ s : State, s.status = .running ∧ s.pc.toNat + 2 * 1 = 4096 ∧
    ∀ a, s.pc.toNat ≤ a → a ≤ 4095 → s.byte a = 0 := by
  refine ⟨State.reset.setPc 0xFFE, rfl, by decide, fun a h1 h2 => ?_⟩
  have h3 : 4094 ≤ a := h1
  obtain rfl | rfl : a = 4094 ∨ a = 4095 := by omega
  · decide
  · decide
theorem witness_zeroed_top : ∃ s : State, s.status = .running ∧ s.pc.toNat + 2 * 0 = 4096 := ⟨State.reset.setPc 0x1000, by decide⟩
/-- JumpToSelfRunsForever (T-CTL-2). -/
theorem witness_jumpToSelf : ∃ s : State, s.status = .running ∧ s.pc.toNat + 1 ≤ 4095 ∧ decode s.fetchWord = .jp 0x200 ∧
    (0x200 : Addr12).toNat = s.pc.toNat := ⟨placed 0x1200 State.reset, by decide⟩
/-- EndOfRunIsStable: an end, a jump elsewhere, and a faulted machine at the same word. -/
theorem witness_endOfRun : ∃ s : State, s.endOfRun = true ∧ isNext (runSteps 2 s) = true := ⟨placed 0x1200 State.reset, by decide⟩
theorem witness_endOfRun_elsewhere : ∃ s : State, s.status = .running ∧ s.pc.toNat + 1 ≤ 4095 ∧ decode s.fetchWord = .jp 0x202 ∧
    (0x202 : Addr12).toNat ≠ s.pc.toNat := ⟨placed 0x1202 State.reset, by decide⟩
theorem witness_endOfRun_faulted : ∃ s : State, s.status = .faulted (.stackUnderflow 0x200) ∧ decode s.fetchWord = .jp 0x200 :=
  ⟨{ placed 0x1200 State.reset with status := .faulted (.stackUnderflow 0x200) }, by decide⟩

end Sys2Proof.Tests
end

/-! ### What the execute phase can do -/

namespace Sys2Proof.Machine

variable {s t : State} {i : Instr}

/-! ### The shared checks, when they let an instruction complete -/

theorem State.withRange_next {base len : Nat} {k : StepResult} (h : s.withRange base len k = .next t) :
    (len = 0 ∨ base + len ≤ 4096) ∧ k = .next t := by
  rw [State.withRange_eq] at h
  split at h
  · exact ⟨‹_›, h⟩
  · cases h

theorem State.withKey_next {x : Reg} {k : Bool → StepResult} (h : s.withKey x k = .next t) :
    ∃ down, k down = .next t := by
  rw [State.withKey_eq] at h
  split at h
  · exact ⟨_, h⟩
  · cases h

theorem State.skipIf_next {c : Bool} (h : s.skipIf c = .next t) : t = s ∨ t = s.setPc (s.pc + 2) := by
  obtain rfl := Host.Outcome.next.inj h
  cases c
  · exact .inl rfl
  · exact .inr rfl

theorem execSkp_next {x : Reg} (h : execSkp x s = .next t) : t = s ∨ t = s.setPc (s.pc + 2) := by
  obtain ⟨_, hk⟩ := State.withKey_next h
  exact State.skipIf_next hk

theorem execSknp_next {x : Reg} (h : execSknp x s = .next t) : t = s ∨ t = s.setPc (s.pc + 2) := by
  obtain ⟨_, hk⟩ := State.withKey_next h
  exact State.skipIf_next hk

theorem execKeyWait_next {x : Reg} (h : execKeyWait x s = .next t) : t = s ∨ t = s.setPc (s.pc - 2) := by
  obtain ⟨down, hk⟩ := State.withKey_next h
  obtain rfl := Host.Outcome.next.inj hk
  cases down
  · exact .inr rfl
  · exact .inl rfl

theorem execCall_next {nnn : Addr12} (h : execCall nnn s = .next t) :
    s.config.stackLimit ≠ some s.stack.length ∧ t = (s.push s.pc).setPc (addrWord nnn) := by
  unfold execCall at h
  split at h
  · cases h
  · next hfull => exact ⟨fun hl => hfull (s.stackFull_iff.2 hl), (Host.Outcome.next.inj h).symm⟩

theorem execRet_next (h : execRet s = .next t) :
    ∃ top rest, s.stack = top :: rest ∧ t = { s with stack := rest, pc := top } := by
  unfold execRet at h
  split at h
  · cases h
  · next top rest hs => exact ⟨top, rest, hs, (Host.Outcome.next.inj h).symm⟩

/-! ### The frame of every instruction -/

/-- The parts of state `s` the execute phase of an instruction may change: what its row's rule assigns (R130 to R195) and nothing
else. -/
def execWrites (s : State) : Instr → Part → Prop
  | .cls, p => p = .redraw ∨ ∃ px py, p = .pixel px py
  | .drw _ _ _, p => p = .reg VF ∨ p = .redraw ∨ ∃ px py, p = .pixel px py
  | .ret, p | .call _, p => p ∈ [.pc, .stack]
  | .jp _, p | .jpOff _, p | .keyWait _, p | .skp _, p | .sknp _, p => p ∈ [.pc]
  | .seImm _ _, p | .sneImm _ _, p | .seReg _ _, p | .sneReg _ _, p => p ∈ [.pc]
  | .ldImm x _, p | .addImm x _, p | .ldReg x _, p | .ldFromDt x, p => p ∈ [.reg x]
  | .orReg x _, p | .andReg x _, p | .xorReg x _, p => p ∈ [.reg x]
  | .addReg x _, p | .sub x _, p | .shr x _, p | .subn x _, p | .shl x _, p => p ∈ [.reg x, .reg VF]
  | .rnd x _, p => p ∈ [.reg x, .rndIndex]
  | .ldDt _, p => p ∈ [.dt]
  | .ldSt _, p => p ∈ [.st]
  | .ldI _, p | .addI _, p | .ldF _, p => p ∈ [.iReg]
  | .bcd _, p => ∃ k < 3, p = .byte (s.iReg.toNat + k)
  | .store x, p => s.config.memIMode = .increment ∧ p = .iReg ∨ ∃ k ≤ x.val, p = .byte (s.iReg.toNat + k)
  | .load x, p => s.config.memIMode = .increment ∧ p = .iReg ∨ ∃ r ≤ x, p = .reg r
  | .nop, _ => False

theorem onlyChanges_of_setPc {w : Word} (h : t = s ∨ t = s.setPc w) : OnlyChanges s t (· ∈ [.pc]) := by
  rcases h with rfl | rfl
  · exact OnlyChanges.refl _ _
  · exact onlyChanges_setPc _ _

theorem mem_of_setPc {w : Word} (h : t = s ∨ t = s.setPc w) : t.mem = s.mem := by
  rcases h with rfl | rfl <;> rfl

theorem onlyChanges_stepI_of_increment (s : State) (x : Reg) :
    OnlyChanges s (s.stepI x) fun p => s.config.memIMode = .increment ∧ p = .iReg := by
  rcases State.stepI_cases s x with ⟨_, he⟩ | ⟨hm, he⟩ <;> rw [he]
  · exact OnlyChanges.refl s _
  · exact (onlyChanges_setI s _).mono fun p hp => ⟨hm, List.mem_singleton.1 hp⟩

theorem onlyChanges_execCls (h : exec .cls s = .next t) : OnlyChanges s t (execWrites s .cls) := by
  obtain rfl := Host.Outcome.next.inj h
  refine (onlyChanges_setDisplay s _).mono ?_
  rintro p (rfl | ⟨px, py, rfl, _⟩)
  · exact .inl rfl
  · exact .inr ⟨px, py, rfl⟩

theorem onlyChanges_execDrw {x y : Reg} {n : Nat} (h : exec (.drw x y n) s = .next t) :
    OnlyChanges s t (execWrites s (.drw x y n)) := by
  obtain ⟨_, hk⟩ := State.withRange_next h
  obtain rfl := Host.Outcome.next.inj hk
  refine ((onlyChanges_setDisplay s _).mono ?_).trans ((onlyChanges_setReg _ VF _).mono ?_)
  · rintro p (rfl | ⟨px, py, rfl, _⟩)
    · exact .inr (.inl rfl)
    · exact .inr (.inr ⟨px, py, rfl⟩)
  · exact fun p hp => .inl (List.mem_singleton.1 hp)

theorem onlyChanges_execRet (h : exec .ret s = .next t) : OnlyChanges s t (execWrites s .ret) := by
  obtain ⟨top, rest, _, rfl⟩ := execRet_next h
  intro p hp
  cases p with
  | pc | stack => exact absurd (by simp [execWrites]) hp
  | _ => rfl

theorem onlyChanges_execCall {nnn : Addr12} (h : exec (.call nnn) s = .next t) :
    OnlyChanges s t (execWrites s (.call nnn)) := by
  obtain ⟨_, rfl⟩ := execCall_next h
  exact ((onlyChanges_push s _).mono (by simp [execWrites])).trans
    ((onlyChanges_setPc _ _).mono (by simp [execWrites]))

theorem onlyChanges_execRnd {x : Reg} {nn : Byte} (h : exec (.rnd x nn) s = .next t) :
    OnlyChanges s t (execWrites s (.rnd x nn)) := by
  obtain rfl := Host.Outcome.next.inj h
  exact ((onlyChanges_consumeRnd s).mono (by simp [execWrites])).trans
    ((onlyChanges_setReg _ x _).mono (by simp [execWrites]))

theorem onlyChanges_execBcd {x : Reg} (h : exec (.bcd x) s = .next t) :
    OnlyChanges s t (execWrites s (.bcd x)) := by
  obtain ⟨_, hk⟩ := State.withRange_next h
  obtain rfl := Host.Outcome.next.inj hk
  exact onlyChanges_storeBytes s _ (bcdDigits (s.reg x))

theorem onlyChanges_execStore {x : Reg} (h : exec (.store x) s = .next t) :
    OnlyChanges s t (execWrites s (.store x)) := by
  obtain ⟨_, hk⟩ := State.withRange_next h
  obtain rfl := Host.Outcome.next.inj hk
  refine ((onlyChanges_storeBytes s _ _).mono ?_).trans
    ((onlyChanges_stepI_of_increment _ x).mono fun p hp => .inl hp)
  rintro p ⟨k, hk, rfl⟩
  exact .inr ⟨k, Nat.le_of_lt_succ (List.length_take_le _ _ |>.trans_lt' hk), rfl⟩

theorem onlyChanges_execLoad {x : Reg} (h : exec (.load x) s = .next t) :
    OnlyChanges s t (execWrites s (.load x)) := by
  obtain ⟨_, hk⟩ := State.withRange_next h
  obtain rfl := Host.Outcome.next.inj hk
  refine ((onlyChanges_loadRegs s _ _).mono ?_).trans ((onlyChanges_stepI_of_increment _ x).mono ?_)
  · rintro p ⟨r, hr, rfl⟩
    exact .inr ⟨r, Nat.le_of_lt_succ hr, rfl⟩
  · rw [State.loadRegs_config]
    exact fun p hp => .inl hp

/-- What the execute phase leaves unchanged, for every instruction. -/
theorem exec_frame (h : exec i s = .next t) : OnlyChanges s t (execWrites s i) := by
  cases i with
  | cls => exact onlyChanges_execCls h
  | drw => exact onlyChanges_execDrw h
  | ret => exact onlyChanges_execRet h
  | call => exact onlyChanges_execCall h
  | rnd => exact onlyChanges_execRnd h
  | bcd => exact onlyChanges_execBcd h
  | store => exact onlyChanges_execStore h
  | load => exact onlyChanges_execLoad h
  | seImm | sneImm | seReg | sneReg => exact onlyChanges_of_setPc (State.skipIf_next h)
  | skp => exact onlyChanges_of_setPc (execSkp_next h)
  | sknp => exact onlyChanges_of_setPc (execSknp_next h)
  | keyWait => exact onlyChanges_of_setPc (execKeyWait_next h)
  | jp | jpOff =>
    obtain rfl := Host.Outcome.next.inj h
    exact onlyChanges_setPc _ _
  | ldImm | addImm | ldReg | orReg | andReg | xorReg | ldFromDt =>
    obtain rfl := Host.Outcome.next.inj h
    exact onlyChanges_setReg _ _ _
  | addReg | sub | shr | subn | shl =>
    obtain rfl := Host.Outcome.next.inj h
    exact onlyChanges_flagThenResult _ _ _ _
  | ldI | addI | ldF =>
    obtain rfl := Host.Outcome.next.inj h
    exact onlyChanges_setI _ _
  | ldDt =>
    obtain rfl := Host.Outcome.next.inj h
    exact onlyChanges_setDt _ _
  | ldSt =>
    obtain rfl := Host.Outcome.next.inj h
    exact onlyChanges_setSt _ _
  | nop =>
    obtain rfl := Host.Outcome.next.inj h
    exact OnlyChanges.refl _ _

/-- The parts every step may change: pc is advanced, the outputs are set, the load port closes and the timers tick (R110). -/
def stepParts : List Part := [.pc, .redraw, .loadOpen, .dt, .st, .sound]

/-- The parts a step that executes the instruction may change. -/
def stepWrites (s : State) (i : Instr) (p : Part) : Prop := p ∈ stepParts ∨ execWrites s i p

/-- What a completed step leaves unchanged. -/
theorem step_frame (h : step s = .next t) : OnlyChanges s t (stepWrites s (decode s.fetchWord)) := by
  obtain ⟨_, _, u, hu, rfl⟩ := (step_next_iff s t).1 h
  have hbegin : OnlyChanges s s.beginExecute (stepWrites s (decode s.fetchWord)) :=
    (onlyChanges_beginExecute s).mono fun _ hp => .inl ((show [.pc, .redraw, .loadOpen] ⊆ stepParts by decide) hp)
  have hend : OnlyChanges u u.endStep (stepWrites s (decode s.fetchWord)) :=
    (onlyChanges_endStep u).mono fun _ hp => .inl ((show [.dt, .st, .sound] ⊆ stepParts by decide) hp)
  have hexec : OnlyChanges s.beginExecute u (stepWrites s (decode s.fetchWord)) :=
    (exec_frame hu).mono fun _ hp => .inr hp
  exact (hbegin.trans hexec).trans hend

/-! ### Who writes a part -/

theorem execWrites_stack : execWrites s i .stack ↔ i = .ret ∨ ∃ nnn, i = .call nnn := by
  cases i <;> simp [execWrites]

theorem execWrites_pixel {px py : Nat} : execWrites s i (.pixel px py) ↔ i = .cls ∨ ∃ x y n, i = .drw x y n := by
  cases i <;> simp [execWrites]

theorem execWrites_rndIndex : execWrites s i .rndIndex ↔ ∃ x nn, i = .rnd x nn := by
  cases i <;> simp [execWrites]

theorem execWrites_iReg : execWrites s i .iReg ↔
    (∃ nnn, i = .ldI nnn) ∨ (∃ x, i = .addI x) ∨ (∃ x, i = .ldF x) ∨
      (s.config.memIMode = .increment ∧ ∃ x, i = .store x ∨ i = .load x) := by
  cases i <;> simp [execWrites]

theorem execWrites_reg {r : Reg} : execWrites s i (.reg r) ↔ writesReg i r = true := by
  cases i <;> simp [execWrites, writesReg, VF]

theorem not_execWrites_key {k : Fin 16} : ¬ execWrites s i (.key k) := by
  cases i <;> simp [execWrites]

theorem not_execWrites_config : ¬ execWrites s i .config := by
  cases i <;> simp [execWrites]

theorem not_execWrites_status : ¬ execWrites s i .status := by
  cases i <;> simp [execWrites]

theorem not_execWrites_loadOpen : ¬ execWrites s i .loadOpen := by
  cases i <;> simp [execWrites]

theorem not_stepWrites_key {k : Fin 16} : ¬ stepWrites s i (.key k) := by
  simp [stepWrites, stepParts, not_execWrites_key]

theorem not_stepWrites_config : ¬ stepWrites s i .config := by
  simp [stepWrites, stepParts, not_execWrites_config]

theorem not_stepWrites_status : ¬ stepWrites s i .status := by
  simp [stepWrites, stepParts, not_execWrites_status]

end Sys2Proof.Machine

/-! ### The invariant (R24, R132, R131, R8) -/

namespace Sys2Proof.Machine

variable {s t : State} {i : Instr}

/-- Where the execute phase leaves pc: the skips, the key-wait, a jump with or without an offset, or an entry of the stack. -/
theorem exec_pc_cases (h : exec i s = .next t) :
    t.pc = s.pc ∨ t.pc = s.pc + 2 ∨ t.pc = s.pc - 2 ∨ (∃ nnn b, t.pc = addrWord nnn + byteWord b) ∨ t.pc ∈ s.stack := by
  have jump : ∀ nnn, addrWord nnn = addrWord nnn + byteWord 0 := fun nnn => (BitVec.add_zero _).symm
  have skip : t = s ∨ t = s.setPc (s.pc + 2) → t.pc = s.pc ∨ t.pc = s.pc + 2 :=
    Or.imp (congrArg State.pc) (congrArg State.pc)
  cases i with
  | seImm | sneImm | seReg | sneReg => exact (skip (State.skipIf_next h)).imp_right .inl
  | skp => exact (skip (execSkp_next h)).imp_right .inl
  | sknp => exact (skip (execSknp_next h)).imp_right .inl
  | keyWait =>
    rcases execKeyWait_next h with rfl | rfl
    · exact .inl rfl
    · exact .inr (.inr (.inl rfl))
  | jp nnn =>
    obtain rfl := Host.Outcome.next.inj h
    exact .inr (.inr (.inr (.inl ⟨nnn, 0, jump nnn⟩)))
  | jpOff nnn =>
    obtain rfl := Host.Outcome.next.inj h
    exact .inr (.inr (.inr (.inl ⟨nnn, _, rfl⟩)))
  | call nnn =>
    obtain ⟨_, rfl⟩ := execCall_next h
    exact .inr (.inr (.inr (.inl ⟨nnn, 0, jump nnn⟩)))
  | ret =>
    obtain ⟨top, rest, hs, rfl⟩ := execRet_next h
    exact .inr (.inr (.inr (.inr (hs ▸ List.mem_cons_self))))
  | _ => exact .inl (exec_frame h .pc (by simp [execWrites]))

/-- What the execute phase does to the stack: nothing, a push below the limit, or a pop. -/
theorem exec_stack_cases (h : exec i s = .next t) :
    t.stack = s.stack ∨ (s.config.stackLimit ≠ some s.stack.length ∧ t.stack = s.pc :: s.stack) ∨
      ∃ top, s.stack = top :: t.stack := by
  cases i with
  | call =>
    obtain ⟨hl, rfl⟩ := execCall_next h
    exact .inr (.inl ⟨hl, rfl⟩)
  | ret =>
    obtain ⟨top, rest, hs, rfl⟩ := execRet_next h
    exact .inr (.inr ⟨top, hs⟩)
  | _ => exact .inl (exec_frame h .stack (by simp [execWrites]))

/-- What the execute phase does to memory: nothing, or bytes stored in range at I (R52, R54). -/
theorem exec_mem_cases (h : exec i s = .next t) :
    t.mem = s.mem ∨ ∃ bs : List Byte, s.base + bs.length ≤ memSize ∧
      t.mem = Memory.writeList s.config.fontBase s.mem s.base bs := by
  cases i with
  | bcd x =>
    obtain ⟨hr, hk⟩ := State.withRange_next h
    obtain rfl := Host.Outcome.next.inj hk
    exact .inr ⟨bcdDigits (s.reg x), hr.resolve_left (by decide), rfl⟩
  | store x =>
    obtain ⟨hr, hk⟩ := State.withRange_next h
    obtain rfl := Host.Outcome.next.inj hk
    refine .inr ⟨s.v.toList.take (blockCount x), ?_, by simp⟩
    have hle := List.length_take_le (blockCount x) s.v.toList
    have := hr.resolve_left (Nat.succ_ne_zero _)
    simp only [memSize]
    omega
  | load | drw =>
    obtain ⟨_, hk⟩ := State.withRange_next h
    obtain rfl := Host.Outcome.next.inj hk
    exact .inl (by simp)
  | skp => exact .inl (mem_of_setPc (execSkp_next h))
  | sknp => exact .inl (mem_of_setPc (execSknp_next h))
  | keyWait => exact .inl (mem_of_setPc (execKeyWait_next h))
  | seImm | sneImm | seReg | sneReg => exact .inl (mem_of_setPc (State.skipIf_next h))
  | call =>
    obtain ⟨_, rfl⟩ := execCall_next h
    exact .inl rfl
  | ret =>
    obtain ⟨_, _, _, rfl⟩ := execRet_next h
    exact .inl rfl
  | _ =>
    obtain rfl := Host.Outcome.next.inj h
    exact .inl rfl

/-- The farthest an indexed jump reaches: 4095 + 255 (R24, D25). -/
theorem addrWord_add_byteWord_toNat_le (nnn : Addr12) (b : Byte) : (addrWord nnn + byteWord b).toNat ≤ 0x10FE := by
  have hn := nnn.isLt
  have hb := b.isLt
  simp only [addrWord, byteWord, BitVec.toNat_add, BitVec.truncate_eq_setWidth, BitVec.toNat_setWidth]
  omega

/-- From a fetch in range and a stack of addresses up to 4096, pc stays in 0 to 0x10FE (R24). -/
theorem exec_pc_le {u : State} (hpc : s.pc.toNat + 1 ≤ 4095) (hstack : ∀ w ∈ s.stack, w.toNat ≤ 4096)
    (h : exec i s.beginExecute = .next u) : u.pc.toNat ≤ 0x10FE := by
  rcases exec_pc_cases h with hp | hp | hp | ⟨nnn, b, hp⟩ | hp
  · rw [hp, State.beginExecute_pc]; bv_omega
  · rw [hp, State.beginExecute_pc]; bv_omega
  · rw [hp, State.beginExecute_pc]; bv_omega
  · rw [hp]; exact addrWord_add_byteWord_toNat_le nnn b
  · exact (hstack _ hp).trans (by decide)

/-- Every stack entry stays at most 4096 (R132). -/
theorem exec_stack_le {u : State} (hpc : s.pc.toNat + 1 ≤ 4095) (hstack : ∀ w ∈ s.stack, w.toNat ≤ 4096)
    (h : exec i s.beginExecute = .next u) : ∀ w ∈ u.stack, w.toNat ≤ 4096 := by
  rcases exec_stack_cases h with hs | ⟨_, hs⟩ | ⟨top, hs⟩
  · rw [hs]; exact hstack
  · rw [hs]
    refine List.forall_mem_cons.2 ⟨?_, hstack⟩
    rw [State.beginExecute_pc]; bv_omega
  · exact (List.forall_mem_cons.1 ((show s.stack = _ from hs) ▸ hstack)).2

/-- The stack never exceeds STACK_LIMIT: a push happens below it only (R131, D8). -/
theorem exec_stack_within_limit (hlimit : s.stack.length ≤ s.config.stackLimit.getD s.stack.length)
    (h : exec i s = .next t) : t.stack.length ≤ s.config.stackLimit.getD t.stack.length := by
  cases hl : s.config.stackLimit with
  | none => exact Nat.le_refl _
  | some limit =>
    rw [hl, Option.getD_some] at hlimit
    rw [Option.getD_some]
    rcases exec_stack_cases h with hs | ⟨hne, hs⟩ | ⟨top, hs⟩
    · rw [hs]; exact hlimit
    · have : limit ≠ s.stack.length := fun he => hne (hl.trans (congrArg some he))
      rw [hs, List.length_cons]; omega
    · rw [hs, List.length_cons] at hlimit; omega

/-- Memory keeps its canonical form: what is stored was checked to lie in range. -/
theorem exec_mem_wf (hw : Memory.wf s.config.fontBase s.mem = true) (h : exec i s = .next t) :
    Memory.wf s.config.fontBase t.mem = true := by
  rcases exec_mem_cases h with hm | ⟨bs, hbs, hm⟩
  · rw [hm]; exact hw
  · rw [hm]; exact Memory.writeList_wf hw hbs

/-- Settles O49: pc, the stack and memory each keep their part of the invariant through the execute phase, and the tick touches
none of them. -/
theorem stepKeepsInvariant : Obligations.StepKeepsInvariant := by
  rintro s t ⟨hlegal, hmem, -, hstack, hlimit⟩ h
  have hconfig : t.config = s.config := step_frame h .config not_stepWrites_config
  obtain ⟨-, hpc, u, hu, rfl⟩ := (step_next_iff s t).1 h
  rw [State.endStep_config] at hconfig
  simp only [State.Inv, State.endStep_config, State.endStep_mem, State.endStep_pc, State.endStep_stack, hconfig]
  exact ⟨hlegal, exec_mem_wf (s := s.beginExecute) hmem hu, exec_pc_le hpc hstack hu, exec_stack_le hpc hstack hu,
    exec_stack_within_limit (s := s.beginExecute) hlimit hu⟩

/-! ### What a step never writes (R30, R35, R28, R29, R25, R162) -/

/-- Settles O10: no instruction's frame holds a key or a parameter, and the step starts by closing the load port. -/
theorem stepNeverWritesKeysOrParameters : Obligations.StepNeverWritesKeysOrParameters := by
  intro s t h
  have hframe := step_frame h
  obtain ⟨hrun, -, u, hu, rfl⟩ := (step_next_iff s t).1 h
  refine ⟨fun k => hframe (.key k) not_stepWrites_key, hframe .config not_stepWrites_config, ?_, ?_⟩
  · exact (hframe .status not_stepWrites_status).trans hrun
  · exact exec_frame hu .loadOpen not_execWrites_loadOpen

/-- A part outside the step's own that a step changed is one its instruction writes. -/
theorem execWrites_of_step_changed {p : Part} (h : step s = .next t)
    (hp : p ∉ stepParts) (hc : ¬ p.Unchanged s t) :
    execWrites s (decode s.fetchWord) p := by
  by_contra hw
  exact hc (step_frame h p (not_or.2 ⟨hp, hw⟩))

/-- Settles O12, by the frame of every instruction. -/
theorem specialStateWriters : Obligations.SpecialStateWriters := by
  intro s t h
  refine ⟨fun hc => ?_, fun px py hc => ?_, fun hc => ?_, fun hc => ?_⟩
  · exact execWrites_stack.1 (execWrites_of_step_changed h (by decide) hc)
  · exact execWrites_pixel.1 (execWrites_of_step_changed h (by simp [stepParts]) hc)
  · exact execWrites_iReg.1 (execWrites_of_step_changed h (by decide) hc)
  · exact execWrites_rndIndex.1 (execWrites_of_step_changed h (by decide) hc)

/-- Settles O13: the registers in an instruction's frame are the column "writes" of R22. -/
theorem registersWrittenPerTable : Obligations.RegistersWrittenPerTable := by
  intro i s t r h hw
  exact exec_frame h (.reg r) (by rw [execWrites_reg, hw]; exact Bool.false_ne_true)

end Sys2Proof.Machine

/-! ### What a step does not depend on (R22, R34) -/

namespace Sys2Proof.Machine

variable {s t : State} {i : Instr}

/-- Outcome `o'` is `o` but for the V registers instruction `i` does not write: the two fault alike and complete alike. -/
def AgreesOnWrites (i : Instr) (o o' : StepResult) : Prop :=
  (∀ f, o = .fault f ↔ o' = .fault f) ∧
  ∀ t, o = .next t → ∃ w', o' = .next { t with v := w' } ∧
    ∀ r : Reg, writesReg i r = true → ({ t with v := w' } : State).reg r = t.reg r

theorem AgreesOnWrites.fault (i : Instr) (f : Fault) : AgreesOnWrites i (.fault f) (.fault f) :=
  ⟨fun _ => Iff.rfl, fun _ h => nomatch h⟩

/-- Two completed outcomes that differ in V only agree when they do on the registers written. -/
theorem AgreesOnWrites.next {t' : State} (hv : t' = { t with v := t'.v })
    (hreg : ∀ r : Reg, writesReg i r = true → t'.reg r = t.reg r) : AgreesOnWrites i (.next t) (.next t') := by
  refine ⟨fun _ => ⟨nofun, nofun⟩, fun u hu => ⟨t'.v, ?_, fun r hr => ?_⟩⟩
  · obtain rfl := Host.Outcome.next.inj hu
    exact congrArg _ hv
  · obtain rfl := Host.Outcome.next.inj hu
    exact hreg r hr

/-- An instruction that writes no register and does the same to both states. -/
theorem AgreesOnWrites.next_of_writes_none {t' : State} (hv : t' = { t with v := t'.v })
    (hnone : ∀ r, writesReg i r = false) : AgreesOnWrites i (.next t) (.next t') :=
  .next hv fun r hr => absurd hr (by simp [hnone r])

section

variable (w : Vector Byte 16)

theorem AgreesOnWrites.withRange {base len : Nat} {k k' : StepResult} (h : AgreesOnWrites i k k') :
    AgreesOnWrites i (s.withRange base len k) (({ s with v := w } : State).withRange base len k') := by
  rw [State.withRange_eq, State.withRange_eq]
  split
  · exact h
  · exact .fault _ _

theorem AgreesOnWrites.withKey {x : Reg} {k k' : Bool → StepResult} (hx : ({ s with v := w } : State).reg x = s.reg x)
    (h : ∀ down, AgreesOnWrites i (k down) (k' down)) :
    AgreesOnWrites i (s.withKey x k) (({ s with v := w } : State).withKey x k') := by
  rw [State.withKey_eq, State.withKey_eq]
  simp only [hx]
  split
  · exact h _
  · exact .fault _ _

theorem AgreesOnWrites.skipIf (c : Bool) (hnone : ∀ r, writesReg i r = false) :
    AgreesOnWrites i (s.skipIf c) (({ s with v := w } : State).skipIf c) := by
  cases c <;> exact .next_of_writes_none rfl hnone

/-- One register written with the same byte. -/
theorem AgreesOnWrites.setReg {x : Reg} {b b' : Byte} (hb : b' = b) (hw : ∀ r, writesReg i r = true → r = x) :
    AgreesOnWrites i (.next (s.setReg x b)) (.next (({ s with v := w } : State).setReg x b')) :=
  .next rfl fun r hr => by simp [hw r hr, hb]

/-- VF and a register written with the same bytes. -/
theorem AgreesOnWrites.flagThenResult {x : Reg} {f f' b b' : Byte} (hf : f' = f) (hb : b' = b)
    (hw : ∀ r, writesReg i r = true → r = x ∨ r = VF) :
    AgreesOnWrites i (.next (s.flagThenResult x f b)) (.next (({ s with v := w } : State).flagThenResult x f' b')) :=
  .next rfl fun r hr => by
    rcases hw r hr with rfl | rfl <;> simp [State.flagThenResult_reg, hf, hb]

/-- The shift source is the register the row lists as read under SHIFT_MODE (R159, R161). -/
theorem State.shiftSource_congr {x y : Reg} (h : ∀ r : Reg, r = (if s.config.shiftMode = .inPlace then x else y) →
    ({ s with v := w } : State).reg r = s.reg r) : ({ s with v := w } : State).shiftSource x y = s.shiftSource x y := by
  unfold State.shiftSource
  cases hm : s.config.shiftMode with
  | inPlace => exact h x (by simp [hm])
  | copyVy => exact h y (by simp [hm])

/-- The register the indexed jump adds is the top nibble of the address (R133). -/
theorem jumpReg_val (nnn : Addr12) : (jumpReg nnn).val = nnn.toNat / 256 := by
  have := nnn.isLt
  simp only [jumpReg, regOfBits, BitVec.extractLsb'_toNat, Nat.shiftRight_eq_div_pow]
  omega

/-- The jump's offset is the register the row lists as read under JUMP_MODE (R133). -/
theorem State.jumpOffset_congr {nnn : Addr12} (h : ∀ r : Reg, r.val = (if s.config.jumpMode = .v0 then 0 else nnn.toNat / 256) →
    ({ s with v := w } : State).reg r = s.reg r) : ({ s with v := w } : State).jumpOffset nnn = s.jumpOffset nnn := by
  unfold State.jumpOffset
  cases hm : s.config.jumpMode with
  | v0 => exact h 0 (by simp [hm])
  | vx => exact h (jumpReg nnn) (by simp [hm, jumpReg_val])

/-- The bytes a block store reads are those of V0 to Vx (R194). -/
theorem take_v_congr {x : Reg} (h : ∀ r : Reg, r ≤ x → ({ s with v := w } : State).reg r = s.reg r) :
    w.toList.take (blockCount x) = s.v.toList.take (blockCount x) := by
  refine List.ext_getElem (by simp) fun k hk _ => ?_
  have hkx : k < x.val + 1 := (List.length_take_le _ _).trans_lt' hk
  have hk16 : k < 16 := by omega
  simpa [State.reg] using h ⟨k, hk16⟩ (Fin.le_def.2 (Nat.le_of_lt_succ hkx))

theorem AgreesOnWrites.execDrw {x y : Reg} (n : Nat) (hx : ({ s with v := w } : State).reg x = s.reg x)
    (hy : ({ s with v := w } : State).reg y = s.reg y) :
    AgreesOnWrites (.drw x y n) (execDrw x y n s) (execDrw x y n { s with v := w }) := by
  refine .withRange w ?_
  have hpos : ({ s with v := w } : State).spriteX x = s.spriteX x ∧ ({ s with v := w } : State).spriteY y = s.spriteY y := by
    simp [State.spriteX, State.spriteY, hx, hy]
  rw [hpos.1, hpos.2]
  refine .next rfl fun r hr => ?_
  obtain rfl : r = VF := by simpa [writesReg, VF] using hr
  simp only [State.setReg_reg, if_pos]
  rfl

theorem AgreesOnWrites.execStore {x : Reg} (h : ∀ r : Reg, r ≤ x → ({ s with v := w } : State).reg r = s.reg r) :
    AgreesOnWrites (.store x) (execStore x s) (execStore x { s with v := w }) := by
  refine .withRange w ?_
  rw [take_v_congr w h]
  refine .next_of_writes_none ?_ fun _ => rfl
  simp only [State.stepI_eq, State.storeBytes_config]
  cases s.config.memIMode <;> rfl

theorem AgreesOnWrites.execLoad (x : Reg) :
    AgreesOnWrites (.load x) (execLoad x s) (execLoad x { s with v := w }) := by
  refine .withRange w (.next ?_ fun r hr => ?_)
  · rw [State.loadRegs_eq s, State.loadRegs_eq { s with v := w }]
    simp only [State.stepI_eq]
    cases s.config.memIMode <;> rfl
  · have hrx : r.val < blockCount x := Nat.lt_succ_of_le (by simpa [writesReg] using hr)
    simp only [State.stepI_reg, (State.loadRegs_spec _ _ _).1, hrx, if_true]
    rfl

theorem AgreesOnWrites.execCall (nnn : Addr12) :
    AgreesOnWrites (.call nnn) (execCall nnn s) (execCall nnn { s with v := w }) := by
  have hsame : ({ s with v := w } : State).stackFull = s.stackFull := rfl
  unfold Machine.execCall
  rw [hsame]
  split
  · exact .fault _ _
  · exact .next_of_writes_none rfl fun _ => rfl

theorem AgreesOnWrites.execRet : AgreesOnWrites .ret (execRet s) (execRet { s with v := w }) := by
  unfold Machine.execRet
  cases s.stack with
  | nil => exact .fault _ _
  | cons => exact .next_of_writes_none rfl fun _ => rfl

end

/-- The execute phase from two states that agree on the registers the row lists as read. -/
theorem exec_agreesOnWrites (w : Vector Byte 16)
    (hread : ∀ r : Reg, readsReg s.config i r = true → ({ s with v := w } : State).reg r = s.reg r) :
    AgreesOnWrites i (exec i s) (exec i { s with v := w }) := by
  cases i with
  | cls | jp | ldI | nop => exact .next_of_writes_none rfl fun _ => rfl
  | ret => exact .execRet w
  | call => exact .execCall w _
  | drw x y n => exact .execDrw w n (hread x (by simp [readsReg])) (hread y (by simp [readsReg]))
  | store => exact .execStore w (by simpa [readsReg] using hread)
  | load => exact .execLoad w _
  | ldImm | rnd | ldFromDt => exact .setReg w rfl (by simp [writesReg])
  | addImm x => exact .setReg w (by rw [hread x (by simp [readsReg])]) (by simp [writesReg])
  | ldReg _ y => exact .setReg w (hread y (by simp [readsReg])) (by simp [writesReg])
  | orReg x y | andReg x y | xorReg x y =>
    exact .setReg w (by rw [hread x (by simp [readsReg]), hread y (by simp [readsReg])]) (by simp [writesReg])
  | addReg x y | sub x y | subn x y =>
    have hx := hread x (by simp [readsReg])
    have hy := hread y (by simp [readsReg])
    exact .flagThenResult w (by rw [hx, hy]) (by rw [hx, hy]) (by simp [writesReg, VF])
  | shr x y | shl x y =>
    have hsource := State.shiftSource_congr w (by simpa [readsReg] using hread)
    exact .flagThenResult w (by rw [hsource]) (by rw [hsource]) (by simp [writesReg, VF])
  | jpOff nnn =>
    have hoffset := State.jumpOffset_congr w (by simpa [readsReg] using hread)
    simp only [exec, execJpOff, hoffset]
    exact .next_of_writes_none rfl fun _ => rfl
  | seImm x | sneImm x =>
    simp only [exec, execSeImm, execSneImm, hread x (by simp [readsReg])]
    exact .skipIf w _ fun _ => rfl
  | seReg x y | sneReg x y =>
    simp only [exec, execSeReg, execSneReg, hread x (by simp [readsReg]), hread y (by simp [readsReg])]
    exact .skipIf w _ fun _ => rfl
  | skp x | sknp x =>
    exact .withKey w (hread x (by simp [readsReg])) fun _ => .skipIf w _ fun _ => rfl
  | keyWait x =>
    simp only [exec, execKeyWait]
    refine .withKey w (hread x (by simp [readsReg])) fun down => ?_
    cases down <;> exact .next_of_writes_none rfl fun _ => rfl
  | ldDt x | ldSt x | addI x =>
    simp only [exec, execLdDt, execLdSt, execAddI, hread x (by simp [readsReg])]
    exact .next_of_writes_none rfl fun _ => rfl
  | ldF x =>
    simp only [exec, execLdF, State.glyphAddr, hread x (by simp [readsReg])]
    exact .next_of_writes_none rfl fun _ => rfl
  | bcd x =>
    simp only [exec, execBcd, hread x (by simp [readsReg])]
    exact .withRange w (.next_of_writes_none rfl fun _ => rfl)

/-- Settles O14, one case per form of instruction. -/
theorem registersReadPerTable : Obligations.RegistersReadPerTable :=
  fun _ _ w hread => exec_agreesOnWrites w hread

/-! ### The outputs of the step before (R34) -/

/-- The state with another sound output stored. -/
def State.withSound (s : State) (b : Bool) : State := { s with sound := b }

theorem State.withSound_storeBytes (s : State) (b : Bool) (a : Nat) (bs : List Byte) :
    (s.withSound b).storeBytes a bs = (s.storeBytes a bs).withSound b := rfl

theorem State.withSound_loadRegs (s : State) (b : Bool) (base count : Nat) :
    (s.withSound b).loadRegs base count = (s.loadRegs base count).withSound b := by
  unfold State.loadRegs
  exact List.foldl_hom (fun u : State => u.withSound b) fun _ _ => rfl

theorem State.withSound_stepI (s : State) (b : Bool) (x : Reg) : (s.withSound b).stepI x = (s.stepI x).withSound b := by
  rw [State.stepI_eq, State.stepI_eq, State.withSound]
  cases s.config.memIMode <;> rfl

/-- The end of the step samples the sound anew, so it forgets the one stored (R118). -/
theorem finishStep_next_withSound (s : State) (b : Bool) : finishStep (.next (s.withSound b)) = finishStep (.next s) := rfl

theorem finishStep_withRange_withSound {b : Bool} {base len : Nat} {k k' : StepResult} (h : finishStep k = finishStep k') :
    finishStep ((s.withSound b).withRange base len k) = finishStep (s.withRange base len k') := by
  rw [State.withRange_eq, State.withRange_eq]
  split
  · exact h
  · rfl

theorem finishStep_withKey_withSound {b : Bool} {x : Reg} {k k' : Bool → StepResult}
    (h : ∀ down, finishStep (k down) = finishStep (k' down)) :
    finishStep ((s.withSound b).withKey x k) = finishStep (s.withKey x k') := by
  rw [State.withKey_eq, State.withKey_eq]
  by_cases hx : (s.reg x).toNat < 16
  · rw [dif_pos hx, dif_pos (show ((s.withSound b).reg x).toNat < 16 from hx)]
    exact h _
  · rw [dif_neg hx, dif_neg (show ¬ ((s.withSound b).reg x).toNat < 16 from hx)]
    rfl

theorem finishStep_skipIf_withSound (b c : Bool) : finishStep ((s.withSound b).skipIf c) = finishStep (s.skipIf c) := by
  cases c <;> rfl

theorem finishStep_execRet_withSound (b : Bool) : finishStep (execRet (s.withSound b)) = finishStep (execRet s) := by
  unfold execRet State.withSound
  cases s.stack <;> rfl

theorem finishStep_execCall_withSound (nnn : Addr12) (b : Bool) :
    finishStep (execCall nnn (s.withSound b)) = finishStep (execCall nnn s) := by
  have hsame : (s.withSound b).stackFull = s.stackFull := rfl
  unfold execCall
  rw [hsame]
  split <;> rfl

/-- No instruction reads the stored sound. -/
theorem finishStep_exec_withSound (b : Bool) : finishStep (exec i (s.withSound b)) = finishStep (exec i s) := by
  cases i with
  | ret => exact finishStep_execRet_withSound b
  | call => exact finishStep_execCall_withSound _ b
  | drw | bcd => exact finishStep_withRange_withSound rfl
  | store =>
    refine finishStep_withRange_withSound ?_
    rw [State.withSound_storeBytes, State.withSound_stepI]
    exact finishStep_next_withSound _ b
  | load =>
    refine finishStep_withRange_withSound ?_
    rw [State.withSound_loadRegs, State.withSound_stepI]
    exact finishStep_next_withSound _ b
  | seImm | sneImm | seReg | sneReg => exact finishStep_skipIf_withSound b _
  | skp | sknp => exact finishStep_withKey_withSound fun _ => finishStep_skipIf_withSound b _
  | keyWait =>
    simp only [exec, execKeyWait]
    refine finishStep_withKey_withSound fun down => ?_
    cases down <;> rfl
  | _ => rfl

theorem RunStatus.faulted_or_running (status : RunStatus) : (∃ r, status = .faulted r) ∨ status = .running := by
  cases status with
  | faulted r => exact .inl ⟨r, rfl⟩
  | running => exact .inr rfl

/-- Settles O15: the step clears the redraw output before the execute phase, which does not read the sound output. -/
theorem outputsCarryNothing : Obligations.OutputsCarryNothing := by
  intro s a b
  obtain ⟨r, hs⟩ | hs := s.status.faulted_or_running
  · simp [step, hs]
  · by_cases hc : s.pc.toNat + 1 ≤ 4095
    · rw [step_of_running hs hc, step_of_running (s := { s with redraw := a, sound := b }) hs hc]
      exact finishStep_exec_withSound (s := s.beginExecute) b
    · simp [step, hs, State.canFetch, hc, State.fetchFault]

/-! ### Reset (R230, R39) -/

theorem fontTable_length : fontTable.length = 80 := rfl

theorem Memory.unlisted_font (fb k : Nat) : Memory.unlisted fb (fb + k) = fontTable.getD k 0 := by
  simp [Memory.unlisted]

theorem Memory.unlisted_outside {fb a : Nat} (h : a < fb ∨ fb + 80 ≤ a) : Memory.unlisted fb a = 0 := by
  unfold Memory.unlisted
  split
  · exact List.getD_eq_default _ _ (by rw [fontTable_length]; omega)
  · rfl

/-- Settles O45: the unlisted bytes are the font and zeros, and every other field is the one reset names. -/
theorem resetState : Obligations.ResetState := by
  intro c _
  have hreg : ∀ r, (State.resetWith c).reg r = 0 := fun r => by simp [State.reg, State.resetWith]
  have hkey : ∀ k, (State.resetWith c).key k = false := fun k => by simp [State.key, State.resetWith]
  exact ⟨rfl, rfl, rfl, fun k _ => Memory.unlisted_font _ k, fontTable_length, rfl,
    fun a ha => Memory.unlisted_outside ha, Display.clear_pixel, hreg, rfl, rfl, rfl, rfl, hkey⟩

end Sys2Proof.Machine

/-! ### Memory: who stores, what the next fetch sees, the load port (20_memory.md) -/

namespace Sys2Proof.Machine

variable {s t : State} {i : Instr}

/-! ### Stores (R54, R56, R64) -/

/-- The bytes in an instruction's frame are the ones Fx33 and Fx55 store to (R193, R194). -/
theorem execWrites_byte {a : Nat} : execWrites s i (.byte a) ↔
    (∃ x, i = .bcd x ∧ s.iReg.toNat ≤ a ∧ a ≤ s.iReg.toNat + 2) ∨
    (∃ x : Reg, i = .store x ∧ s.iReg.toNat ≤ a ∧ a ≤ s.iReg.toNat + x.val) := by
  have extent : ∀ n, (∃ k ≤ n, a = s.iReg.toNat + k) ↔ s.iReg.toNat ≤ a ∧ a ≤ s.iReg.toNat + n := fun n =>
    ⟨fun ⟨k, hk, ha⟩ => by omega, fun ⟨hl, hu⟩ => ⟨a - s.iReg.toNat, by omega, by omega⟩⟩
  cases i with
  | bcd => simpa [execWrites, Nat.lt_succ_iff] using extent 2
  | store x => simpa [execWrites] using extent x.val
  | _ => simp [execWrites]

/-- Settles O11: a changed byte lies in the frame of the instruction the step executed. -/
theorem memoryChangesOnlyByBcdAndStore : Obligations.MemoryChangesOnlyByBcdAndStore := by
  intro s t a h hc
  exact execWrites_byte.1 (execWrites_of_step_changed h (by simp [stepParts]) hc)

/-- A completed Fx55 lay in range, stored V0 to Vx at I and then stepped I (R194). -/
theorem execStore_next {x : Reg} (h : execStore x s = .next t) :
    s.iReg.toNat + x.val ≤ 4095 ∧
      t = (s.storeBytes s.base (s.v.toList.take (blockCount x))).stepI x := by
  obtain ⟨hr, hk⟩ := State.withRange_next h
  have hr' : s.iReg.toNat + (x.val + 1) ≤ 4096 := hr.resolve_left (Nat.succ_ne_zero _)
  exact ⟨by omega, (Host.Outcome.next.inj hk).symm⟩

/-- Fx55 leaves V0 to Vx at I to I + x (R194). -/
theorem execStore_byte {x r : Reg} (hw : Memory.wf s.config.fontBase s.mem = true) (h : execStore x s = .next t)
    (hr : r ≤ x) : t.byte (s.iReg.toNat + r.val) = s.reg r := by
  obtain ⟨hrange, rfl⟩ := execStore_next h
  have hlen : (s.v.toList.take (blockCount x)).length = x.val + 1 := by simp [blockCount]
  have hk : r.val < (s.v.toList.take (blockCount x)).length := hlen ▸ Nat.lt_succ_of_le hr
  have hfit : s.base + (s.v.toList.take (blockCount x)).length ≤ memSize := by
    rw [hlen]; exact Nat.succ_le_succ hrange
  rw [State.stepI_byte]
  exact (State.storeBytes_byte_inside hw hfit hk).trans (by simp [State.reg])

theorem execStore_pc {x : Reg} (h : execStore x s = .next t) : t.pc = s.pc := by
  obtain ⟨-, rfl⟩ := execStore_next h
  rw [State.stepI_pc, State.storeBytes_pc]

/-- The tick touches neither pc nor memory, so not the word to fetch. -/
@[simp] theorem State.endStep_fetchWord (s : State) : s.endStep.fetchWord = s.fetchWord := rfl

/-- Settles O42: the block store leaves pc at the next instruction, whose two bytes are V0 and V1. -/
theorem storeIsSeenByNextFetch : Obligations.StoreIsSeenByNextFetch := by
  intro s t x h hd hx hi hw
  obtain ⟨-, -, u, hu, rfl⟩ := (step_next_iff s t).1 h
  rw [hd] at hu
  have hpc : u.pc = s.iReg := (execStore_pc hu).trans hi.symm
  have hstored : ∀ r : Reg, r ≤ x → u.byte (s.iReg.toNat + r.val) = s.reg r := fun r hr =>
    execStore_byte (s := s.beginExecute) hw hu hr
  rw [State.endStep_fetchWord, State.fetchWord, hpc]
  exact congrArg₂ wordOfBytes (hstored 0 (Fin.zero_le x)) (hstored 1 hx)

/-! ### The ports that write state (R60, R217) -/

/-- The state after an accepted load: the whole image at 0x200, and the port closed (R60, D21). -/
def State.withImage (s : State) (img : List Byte) : State := { s.storeBytes progBase img with loadOpen := false }

theorem progBase_add_length_le {img : List Byte} (hl : img.length ≤ 3584) : progBase + img.length ≤ memSize := by
  simp only [progBase, memSize]; omega

theorem loadProgram_of_fits {img : List Byte} (ho : s.loadOpen = true) (hl : img.length ≤ 3584) :
    loadProgram img s = .ok (s.withImage img) := by
  rw [loadProgram, if_pos ho, if_neg (by simp only [progBase, memSize]; omega), State.withImage]

theorem loadProgram_tooLarge {img : List Byte} (ho : s.loadOpen = true) (hl : img.length > 3584) :
    loadProgram img s = .error .loadTooLarge := by
  rw [loadProgram, if_pos ho, if_pos (by simp only [progBase, memSize]; omega)]

theorem loadProgram_closed {img : List Byte} (ho : s.loadOpen = false) : loadProgram img s = .error .loadClosed := by
  rw [loadProgram, if_neg (ho ▸ Bool.false_ne_true)]

/-- A load that succeeds stored an image that fits. -/
theorem loadProgram_ok {img : List Byte} (h : loadProgram img s = .ok t) : img.length ≤ 3584 ∧ t = s.withImage img := by
  cases ho : s.loadOpen with
  | false =>
    rw [loadProgram_closed ho] at h
    cases h
  | true =>
    rcases Nat.lt_or_ge 3584 img.length with hl | hl
    · rw [loadProgram_tooLarge ho hl] at h
      cases h
    · rw [loadProgram_of_fits ho hl] at h
      exact ⟨hl, (Except.ok.inj h).symm⟩

/-- An accepted image is read back verbatim. -/
theorem State.withImage_byte {img : List Byte} (hw : Memory.wf s.config.fontBase s.mem = true) (hl : img.length ≤ 3584)
    {k : Nat} (hk : k < img.length) : (s.withImage img).byte (progBase + k) = img[k] :=
  State.storeBytes_byte_inside hw (progBase_add_length_le hl) hk

theorem onlyChanges_withImage (s : State) (img : List Byte) :
    OnlyChanges s (s.withImage img) fun p => p = .loadOpen ∨ ∃ k, k < img.length ∧ p = .byte (progBase + k) := by
  intro p hp
  cases p with
  | byte a => exact onlyChanges_storeBytes s progBase img (.byte a) fun hk => hp (.inr hk)
  | loadOpen => exact absurd (.inl rfl) hp
  | _ => rfl

/-- Settles O46: one lemma for each of the port's three answers. -/
theorem programLoadPort : Obligations.ProgramLoadPort := by
  intro img s hw
  refine ⟨fun ho hl => ?_, loadProgram_tooLarge, loadProgram_closed⟩
  exact ⟨s.withImage img, loadProgram_of_fits ho hl, rfl, fun _ hk => State.withImage_byte hw hl hk,
    onlyChanges_withImage s img⟩

theorem setKey_ok {k : Nat} {down : Bool} (h : setKey k down s = .ok t) :
    t = { s with keys := s.keys.setIfInBounds k down } := by
  unfold setKey at h
  split at h
  · exact (Except.ok.inj h).symm
  · cases h

/-- Settles O50: a load stores an image that fits, so memory stays canonical; the invariant reads neither the port's flag nor a
key. -/
theorem portsKeepInvariant : Obligations.PortsKeepInvariant := by
  intro s t hinv
  refine ⟨fun img h => ?_, fun k b h => ?_⟩
  · obtain ⟨hl, rfl⟩ := loadProgram_ok h
    obtain ⟨hlegal, hmem, hrest⟩ := hinv
    exact ⟨hlegal, Memory.writeList_wf hmem (progBase_add_length_le hl), hrest⟩
  · obtain rfl := setKey_ok h
    exact hinv

end Sys2Proof.Machine

/-! ### The encoder and the opcode map against the decoder (30_encoding.md) -/

namespace Sys2Proof

/-! ### Decode after encode (R84, R85) -/

theorem decode_encode {i : Instr} (h : i.wf = true) : decode (encode i) = i := by
  cases i with
  | cls | ret | nop => rfl
  | ldReg | orReg | andReg | xorReg | addReg | sub | shr | subn | shl =>
    simp [encode, decode_of_opField, decodeFamily, decode8]
  | skp | sknp => simp [encode, decode_of_opField, decodeFamily, decodeE]
  | ldFromDt | keyWait | ldDt | ldSt | addI | ldF | bcd | store | load =>
    simp [encode, decode_of_opField, decodeFamily, decodeF]
  | drw x y n =>
    have hn : n < 16 := Nat.lt_succ_of_le (of_decide_eq_true h)
    simp [encode, decode_of_opField, decodeFamily, Nat.mod_eq_of_lt hn]
  | _ => simp [encode, decode_of_opField, decodeFamily]

/-- Settles O2: two stored bytes decode as their word, and the word of an instruction as that instruction. -/
theorem decodeEncodeRoundTrip : Obligations.DecodeEncodeRoundTrip := by
  intro i rest h
  rw [decodeBytes_bytesOfWord, decode_encode h]

/-! ### Encode after decode (R84, R85, R88) -/

theorem encode_decode8 (x y : Reg) (n : BitVec 4) :
    decode8 x y n = .nop ∨ encode (decode8 x y n) = packXYN 0x8 x y n := by
  unfold decode8
  split
  case h_10 => exact .inl rfl
  all_goals exact .inr rfl

theorem encode_decodeE (x : Reg) (nn : Byte) :
    decodeE x nn = .nop ∨ encode (decodeE x nn) = packXNN 0xE x nn := by
  unfold decodeE
  split
  case h_3 => exact .inl rfl
  all_goals exact .inr rfl

theorem encode_decodeF (x : Reg) (nn : Byte) :
    decodeF x nn = .nop ∨ encode (decodeF x nn) = packXNN 0xF x nn := by
  unfold decodeF
  split
  case h_10 => exact .inl rfl
  all_goals exact .inr rfl

/-! ### Masks of a packed word (R85) -/

theorem packNNN_and_family (op : BitVec 4) (nnn : Addr12) : packNNN op nnn &&& 0xF000 = packNNN op 0 := by
  change op ++ nnn &&& 0xF#4 ++ 0#12 = op ++ 0#12
  rw [BitVec.and_append, BitVec.and_zero]
  exact congrArg (· ++ 0#12) BitVec.and_allOnes

theorem packXNN_and_family_byte (op : BitVec 4) (x : Reg) (nn : Byte) :
    packXNN op x nn &&& 0xF0FF = packXNN op 0 nn := by
  change op ++ regBits x ++ nn &&& 0xF#4 ++ 0#4 ++ 0xFF#8 = op ++ 0#4 ++ nn
  rw [BitVec.and_append, BitVec.and_append, BitVec.and_zero]
  exact congrArg₂ (fun (a : BitVec 4) b => a ++ 0#4 ++ b) BitVec.and_allOnes BitVec.and_allOnes

theorem packXYN_and_family_nibble (op : BitVec 4) (x y : Reg) (n : BitVec 4) :
    packXYN op x y n &&& 0xF00F = packXYN op 0 0 n := by
  change op ++ regBits x ++ regBits y ++ n &&& 0xF#4 ++ 0#4 ++ 0#4 ++ 0xF#4 = op ++ 0#4 ++ 0#4 ++ n
  rw [BitVec.and_append, BitVec.and_append, BitVec.and_append, BitVec.and_zero, BitVec.and_zero]
  exact congrArg₂ (fun (a : BitVec 4) b => a ++ 0#4 ++ 0#4 ++ b) BitVec.and_allOnes BitVec.and_allOnes

theorem packXYN_clear_nibble (op : BitVec 4) (x y : Reg) (n : BitVec 4) :
    packXYN op x y n &&& 0xFFF0 = packXYN op x y 0 := by
  change op ++ regBits x ++ regBits y ++ n &&& 0xFFF#12 ++ 0#4 = op ++ regBits x ++ regBits y ++ 0#4
  rw [BitVec.and_append, BitVec.and_zero]
  exact congrArg (· ++ 0#4) BitVec.and_allOnes

/-! ### A word by its format (R82, R84) -/

theorem eq_packNNN {w : Word} {op : BitVec 4} (h : opField w = op) : packNNN op (nnnField w) = w :=
  h ▸ packNNN_fields w

theorem eq_packXNN {w : Word} {op : BitVec 4} (h : opField w = op) : packXNN op (xField w) (nnField w) = w :=
  h ▸ packXNN_fields w

theorem eq_packXYN {w : Word} {op : BitVec 4} (h : opField w = op) :
    packXYN op (xField w) (yField w) (nField w) = w :=
  h ▸ packXYN_fields w

/-- R84 as a relation: a word written in its family's format, and the instruction it is routed to. -/
inductive Routes : Word → Instr → Prop where
  | cls : Routes 0x00E0 .cls
  | ret : Routes 0x00EE .ret
  | zero {w : Word} (ho : opField w = 0x0) (hcls : w ≠ 0x00E0) (hret : w ≠ 0x00EE) : Routes w .nop
  | jp (nnn : Addr12) : Routes (packNNN 0x1 nnn) (.jp nnn)
  | call (nnn : Addr12) : Routes (packNNN 0x2 nnn) (.call nnn)
  | seImm (x : Reg) (nn : Byte) : Routes (packXNN 0x3 x nn) (.seImm x nn)
  | sneImm (x : Reg) (nn : Byte) : Routes (packXNN 0x4 x nn) (.sneImm x nn)
  | seReg (x y : Reg) (n : BitVec 4) : Routes (packXYN 0x5 x y n) (.seReg x y)
  | ldImm (x : Reg) (nn : Byte) : Routes (packXNN 0x6 x nn) (.ldImm x nn)
  | addImm (x : Reg) (nn : Byte) : Routes (packXNN 0x7 x nn) (.addImm x nn)
  | family8 (x y : Reg) (n : BitVec 4) : Routes (packXYN 0x8 x y n) (decode8 x y n)
  | sneReg (x y : Reg) (n : BitVec 4) : Routes (packXYN 0x9 x y n) (.sneReg x y)
  | ldI (nnn : Addr12) : Routes (packNNN 0xA nnn) (.ldI nnn)
  | jpOff (nnn : Addr12) : Routes (packNNN 0xB nnn) (.jpOff nnn)
  | rnd (x : Reg) (nn : Byte) : Routes (packXNN 0xC x nn) (.rnd x nn)
  | drw (x y : Reg) (n : BitVec 4) : Routes (packXYN 0xD x y n) (.drw x y n.toNat)
  | familyE (x : Reg) (nn : Byte) : Routes (packXNN 0xE x nn) (decodeE x nn)
  | familyF (x : Reg) (nn : Byte) : Routes (packXNN 0xF x nn) (decodeF x nn)

theorem Routes.of_eq {v w : Word} {i : Instr} (hv : v = w) (h : Routes v i) : Routes w i := hv ▸ h

theorem decode_routes (w : Word) : Routes w (decode w) := by
  rcases nibble_cases (opField w) with
    ho | ho | ho | ho | ho | ho | ho | ho | ho | ho | ho | ho | ho | ho | ho | ho
  · by_cases hcls : w = 0x00E0
    · exact hcls ▸ .cls
    · by_cases hret : w = 0x00EE
      · exact hret ▸ .ret
      · exact (decode_of_opField_zero ho hcls hret).symm ▸ .zero ho hcls hret
  all_goals
    rw [decode_of_opField (by rw [ho]; decide), decodeFamily, ho]
  · exact .of_eq (eq_packNNN ho) (.jp _)
  · exact .of_eq (eq_packNNN ho) (.call _)
  · exact .of_eq (eq_packXNN ho) (.seImm _ _)
  · exact .of_eq (eq_packXNN ho) (.sneImm _ _)
  · exact .of_eq (eq_packXYN ho) (.seReg _ _ _)
  · exact .of_eq (eq_packXNN ho) (.ldImm _ _)
  · exact .of_eq (eq_packXNN ho) (.addImm _ _)
  · exact .of_eq (eq_packXYN ho) (.family8 _ _ _)
  · exact .of_eq (eq_packXYN ho) (.sneReg _ _ _)
  · exact .of_eq (eq_packNNN ho) (.ldI _)
  · exact .of_eq (eq_packNNN ho) (.jpOff _)
  · exact .of_eq (eq_packXNN ho) (.rnd _ _)
  · exact .of_eq (eq_packXYN ho) (.drw _ _ _)
  · exact .of_eq (eq_packXNN ho) (.familyE _ _)
  · exact .of_eq (eq_packXNN ho) (.familyF _ _)

theorem Routes.encode_eq {w : Word} {i : Instr} (h : Routes w i) (hi : i ≠ .nop) :
    encode i = if opField w = 0x5 ∨ opField w = 0x9 then w &&& 0xFFF0 else w := by
  cases h with
  | cls | ret => rfl
  | zero => exact absurd rfl hi
  | seReg | sneReg => rw [opField_packXYN, if_pos (by decide), packXYN_clear_nibble, encode]
  | family8 x y n =>
    rw [opField_packXYN, if_neg (by decide)]
    exact (encode_decode8 x y n).resolve_left hi
  | familyE x nn =>
    rw [opField_packXNN, if_neg (by decide)]
    exact (encode_decodeE x nn).resolve_left hi
  | familyF x nn =>
    rw [opField_packXNN, if_neg (by decide)]
    exact (encode_decodeF x nn).resolve_left hi
  | drw => rw [opField_packXYN, if_neg (by decide), encode, BitVec.ofNat_toNat, BitVec.setWidth_eq]
  | jp | call | ldI | jpOff => rw [opField_packNNN, if_neg (by decide), encode]
  | seImm | sneImm | ldImm | addImm | rnd => rw [opField_packXNN, if_neg (by decide), encode]

/-- Settles O3: every format packs a word's fields back into the word; rows 5xyn and 9xyn alone drop a field. -/
theorem encodeDecodeCanonical : Obligations.EncodeDecodeCanonical :=
  fun w => (decode_routes w).encode_eq

/-- Settles O5: a family's words are all NOP, none, or those its sub-route leaves undefined. -/
theorem nopWordClasses : Obligations.NopWordClasses := by
  intro w
  have hroute := decode_routes w
  generalize decode w = i at hroute ⊢
  cases hroute with
  | cls | ret => decide
  | zero ho hcls hret => exact iff_of_true rfl (.inl ⟨ho, hcls, hret⟩)
  | family8 => simp [decode8_eq_nop_iff]
  | familyE => simp [decodeE_eq_nop_iff]
  | familyF => simp [decodeF_eq_nop_iff]
  | _ => simp

/-! ### The rows a word selects (R85) -/

theorem and_family (w : Word) : w &&& 0xF000 = packNNN (opField w) 0 := by
  conv_lhs => rw [← packNNN_fields w, packNNN_and_family]

theorem and_family_byte (w : Word) : w &&& 0xF0FF = packXNN (opField w) 0 (nnField w) := by
  conv_lhs => rw [← packXNN_fields w, packXNN_and_family_byte]

theorem and_family_nibble (w : Word) : w &&& 0xF00F = packXYN (opField w) 0 0 (nField w) := by
  conv_lhs => rw [← packXYN_fields w, packXYN_and_family_nibble]

/-- The rows of one opcode family. -/
def familyRows (op : BitVec 4) : List OpcodeRow := opcodeMap.filter fun r => opField r.pattern == op

theorem pattern_and_mask {r : OpcodeRow} (hr : r ∈ opcodeMap) : r.pattern &&& r.mask = r.pattern :=
  (show ∀ r ∈ opcodeMap, r.pattern &&& r.mask = r.pattern by decide) r hr

theorem opField_mask {r : OpcodeRow} (hr : r ∈ opcodeMap) : opField r.mask = 0xF :=
  (show ∀ r ∈ opcodeMap, opField r.mask = 0xF by decide) r hr

theorem mem_familyRows {op : BitVec 4} {r : OpcodeRow} :
    r ∈ familyRows op ↔ r ∈ opcodeMap ∧ opField r.pattern = op := by
  simp [familyRows]

theorem OpcodeRow.selects_iff {r : OpcodeRow} (hr : r ∈ opcodeMap) (w : Word) :
    r.selects w = true ↔ w &&& r.mask = r.pattern &&& r.mask := by
  rw [pattern_and_mask hr, OpcodeRow.selects, beq_iff_eq]

theorem OpcodeRow.opField_of_selects {r : OpcodeRow} (hr : r ∈ opcodeMap) {w : Word} (h : r.selects w = true) :
    opField r.pattern = opField w := by
  have hand : ∀ v : Word, opField (v &&& r.mask) = opField v := fun v =>
    BitVec.extractLsb'_and.trans ((congrArg (opField v &&& ·) (opField_mask hr)).trans BitVec.and_allOnes)
  rw [← hand, ← hand w, (selects_iff hr w).1 h]

/-- A word selects rows of its own family only. -/
theorem selected_eq_familyRows_filter (w : Word) :
    opcodeMap.filter (fun r => r.selects w) = (familyRows (opField w)).filter fun r => r.selects w := by
  rw [familyRows, List.filter_filter]
  refine List.filter_congr fun r hr => ?_
  cases h : r.selects w with
  | false => rfl
  | true => simp [OpcodeRow.opField_of_selects hr h]

/-- In a family of one row, which masks the top nibble alone, that row is selected. -/
theorem selected_of_family_mask {w : Word} {op : BitVec 4} (ho : opField w = op)
    (hm : ∀ r ∈ familyRows op, r.mask = 0xF000) : opcodeMap.filter (fun r => r.selects w) = familyRows op := by
  rw [selected_eq_familyRows_filter, ho, List.filter_eq_self]
  intro r hr
  obtain ⟨hmap, hop⟩ := mem_familyRows.1 hr
  rw [OpcodeRow.selects_iff hmap, hm r hr, and_family, and_family, ho, hop]

/-- Where rows mask the low nibble too, the selected ones are those of the word's low nibble. -/
theorem selected_of_family_nibble_mask {w : Word} {op : BitVec 4} (ho : opField w = op)
    (hm : ∀ r ∈ familyRows op, r.mask = 0xF00F) :
    opcodeMap.filter (fun r => r.selects w) = (familyRows op).filter fun r => nField r.pattern == nField w := by
  rw [selected_eq_familyRows_filter, ho]
  refine List.filter_congr fun r hr => ?_
  obtain ⟨hmap, hop⟩ := mem_familyRows.1 hr
  rw [Bool.eq_iff_iff, OpcodeRow.selects_iff hmap, hm r hr, and_family_nibble, and_family_nibble, ho, hop, beq_iff_eq]
  exact ⟨fun h => by simpa using (congrArg nField h).symm, fun h => by rw [h]⟩

/-- Where rows mask the low byte too, the selected ones are those of the word's low byte. -/
theorem selected_of_family_byte_mask {w : Word} {op : BitVec 4} (ho : opField w = op)
    (hm : ∀ r ∈ familyRows op, r.mask = 0xF0FF) :
    opcodeMap.filter (fun r => r.selects w) = (familyRows op).filter fun r => nnField r.pattern == nnField w := by
  rw [selected_eq_familyRows_filter, ho]
  refine List.filter_congr fun r hr => ?_
  obtain ⟨hmap, hop⟩ := mem_familyRows.1 hr
  rw [Bool.eq_iff_iff, OpcodeRow.selects_iff hmap, hm r hr, and_family_byte, and_family_byte, ho, hop, beq_iff_eq]
  exact ⟨fun h => by simpa using (congrArg nnField h).symm, fun h => by rw [h]⟩

/-- Family 0 holds two rows, each selected by its one word. -/
theorem selected_of_family_zero {w : Word} (ho : opField w = 0) (hcls : w ≠ 0x00E0) (hret : w ≠ 0x00EE) :
    opcodeMap.filter (fun r => r.selects w) = [] := by
  rw [selected_eq_familyRows_filter, ho, List.filter_eq_nil_iff]
  intro r hr hs
  obtain ⟨hm, hp⟩ := (show ∀ r ∈ familyRows 0, r.mask = BitVec.allOnes 16 ∧ (r.pattern = 0x00E0 ∨ r.pattern = 0x00EE)
    by decide) r hr
  rw [OpcodeRow.selects, beq_iff_eq, hm, BitVec.and_allOnes] at hs
  exact hp.elim (hs ▸ hcls) (hs ▸ hret)

theorem family8_mnemonics (x y : Reg) (n : BitVec 4) :
    ((familyRows 0x8).filter fun r => nField r.pattern == n).map OpcodeRow.mnemonic =
      if decode8 x y n = .nop then [] else [(decode8 x y n).mnemonic] := by
  rcases nibble_cases n with h | h | h | h | h | h | h | h | h | h | h | h | h | h | h | h <;> subst h <;> rfl

/-- A low byte that no row of the family carries selects none. -/
theorem familyRows_filter_byte_eq_nil {op : BitVec 4} {nn : Byte}
    (h : nn ∉ (familyRows op).map fun r => nnField r.pattern) :
    ((familyRows op).filter fun r => nnField r.pattern == nn) = [] :=
  List.filter_eq_nil_iff.2 fun r hr he => h (List.mem_map.2 ⟨r, hr, beq_iff_eq.1 he⟩)

theorem familyE_mnemonics (x : Reg) (nn : Byte) :
    ((familyRows 0xE).filter fun r => nnField r.pattern == nn).map OpcodeRow.mnemonic =
      if decodeE x nn = .nop then [] else [(decodeE x nn).mnemonic] := by
  by_cases hnop : decodeE x nn = .nop
  · rw [if_pos hnop, familyRows_filter_byte_eq_nil ((decodeE_eq_nop_iff x nn).1 hnop), List.map_nil]
  · have hnn := of_not_not (mt (decodeE_eq_nop_iff x nn).2 hnop)
    fin_cases hnn <;> rfl

theorem familyF_mnemonics (x : Reg) (nn : Byte) :
    ((familyRows 0xF).filter fun r => nnField r.pattern == nn).map OpcodeRow.mnemonic =
      if decodeF x nn = .nop then [] else [(decodeF x nn).mnemonic] := by
  by_cases hnop : decodeF x nn = .nop
  · rw [if_pos hnop, familyRows_filter_byte_eq_nil ((decodeF_eq_nop_iff x nn).1 hnop), List.map_nil]
  · have hnn := of_not_not (mt (decodeF_eq_nop_iff x nn).2 hnop)
    fin_cases hnn <;> rfl

theorem Routes.wf {w : Word} {i : Instr} (h : Routes w i) : i.wf = true := by
  cases h with
  | family8 =>
    unfold decode8
    split <;> rfl
  | familyE =>
    unfold decodeE
    split <;> rfl
  | familyF =>
    unfold decodeF
    split <;> rfl
  | drw _ _ n => exact decide_eq_true (Nat.le_of_lt_succ n.isLt)
  | _ => rfl

theorem Routes.mnemonics {w : Word} {i : Instr} (h : Routes w i) :
    (opcodeMap.filter fun r => r.selects w).map OpcodeRow.mnemonic = if i = .nop then [] else [i.mnemonic] := by
  cases h with
  | cls | ret => rfl
  | zero ho hcls hret =>
    rw [selected_of_family_zero ho hcls hret]
    rfl
  | family8 x y n =>
    rw [selected_of_family_nibble_mask (opField_packXYN _ _ _ _) (by decide), nField_packXYN]
    exact family8_mnemonics x y n
  | familyE x nn =>
    rw [selected_of_family_byte_mask (opField_packXNN _ _ _) (by decide), nnField_packXNN]
    exact familyE_mnemonics x nn
  | familyF x nn =>
    rw [selected_of_family_byte_mask (opField_packXNN _ _ _) (by decide), nnField_packXNN]
    exact familyF_mnemonics x nn
  | jp | call | ldI | jpOff =>
    rw [selected_of_family_mask (opField_packNNN _ _) (by decide)]
    rfl
  | seImm | sneImm | ldImm | addImm | rnd =>
    rw [selected_of_family_mask (opField_packXNN _ _ _) (by decide)]
    rfl
  | seReg | sneReg | drw =>
    rw [selected_of_family_mask (opField_packXYN _ _ _ _) (by decide)]
    rfl

/-- Settles O4: a word selects within its family only, by the bits its family's rows mask, which are those the decoder routes by. -/
theorem decoderFollowsOpcodeMap : Obligations.DecoderFollowsOpcodeMap :=
  fun w => ⟨(decode_routes w).wf, (decode_routes w).mnemonics⟩

/-- Settles O1: each word is closed, and the decoder runs on it. -/
theorem sampleWordsDecode : Obligations.SampleWordsDecode := by
  unfold Obligations.SampleWordsDecode
  decide

end Sys2Proof

/-! ### Running off into zeroed memory (R89, R222) -/

namespace Sys2Proof.Machine

variable {s t : State}

theorem step_of_nop (hs : s.status = .running) (hc : s.pc.toNat + 1 ≤ 4095) (hd : decode s.fetchWord = .nop) :
    step s = .next s.beginExecute.endStep := by
  rw [step_of_running hs hc, hd]
  rfl

theorem step_fault_at_top (hs : s.status = .running) (hpc : s.pc.toNat = 4096) : step s = .fault (.memRange 4096 4096) := by
  have hw : s.pc = 4096 := BitVec.eq_of_toNat_eq hpc
  simp [step, hs, State.canFetch, State.fetchFault, firstOutside, raiseFault, hw]

theorem decode_fetchWord_of_zeros (h0 : s.byte s.pc.toNat = 0) (h1 : s.byte (s.pc.toNat + 1) = 0) :
    decode s.fetchWord = .nop := by
  rw [State.fetchWord, h0, h1]
  decide

theorem step_frame_of_nop (hd : decode s.fetchWord = .nop) (h : step s = .next t) :
    OnlyChanges s t (· ∈ [.pc, .dt, .st, .redraw, .sound, .loadOpen]) := by
  have hframe := step_frame h
  rw [hd] at hframe
  exact hframe.mono fun _ hp =>
    (show stepParts ⊆ [.pc, .dt, .st, .redraw, .sound, .loadOpen] by decide) (hp.resolve_right id)

/-- Settles O51, by induction on the words left below the top. -/
theorem zeroedMemoryRunsToTheTop : Obligations.ZeroedMemoryRunsToTheTop := by
  intro s count hs hpc hzero
  induction count generalizing s with
  | zero => exact ⟨s, rfl, hpc, rfl, rfl, OnlyChanges.refl s _, step_fault_at_top hs hpc⟩
  | succ n ih =>
    have hnop : decode s.fetchWord = .nop :=
      decode_fetchWord_of_zeros (hzero _ le_rfl (by omega)) (hzero _ (by omega) (by omega))
    have hstep := step_of_nop hs (by omega) hnop
    have hadvance : s.beginExecute.endStep.pc.toNat = s.pc.toNat + 2 := by
      rw [State.endStep_pc, State.beginExecute_pc, BitVec.toNat_add_of_lt (by simp; omega)]
      rfl
    obtain ⟨t, hrun, htop, hdt, hst, hframe, hfault⟩ :=
      ih s.beginExecute.endStep hs (by omega) fun a hl hu => hzero a (by omega) hu
    simp only [State.endStep_dt, State.endStep_st, State.beginExecute_dt, State.beginExecute_st, tickTimer_toNat] at hdt hst
    exact ⟨t, (runSteps_succ n s t).2 ⟨_, hstep, hrun⟩, htop, by omega, by omega,
      (step_frame_of_nop hnop hstep).trans hframe, hfault⟩

end Sys2Proof.Machine

/-! ### When the execute phase stops (R200) -/

namespace Sys2Proof.Machine

variable {s t : State} {i : Instr}

/-- An execute phase that ends as the fault table says: in the fault it gives, or with a next state where it gives none. -/
inductive EndsPer : Option Fault → StepResult → Prop
  | fault (r : Fault) : EndsPer (some r) (.fault r)
  | next (t : State) : EndsPer none (.next t)

theorem EndsPer.completes_iff {f : Option Fault} {o : StepResult} (h : EndsPer f o) : (∃ t, o = .next t) ↔ f = none := by
  cases h with
  | fault r => simp
  | next t => simp

theorem EndsPer.ne_refused {f : Option Fault} {o : StepResult} (h : EndsPer f o) (r : Refusal) : o ≠ .refused r := by
  cases h with
  | fault _ => exact nofun
  | next _ => exact nofun

/-- The range check of an access at I raises the fault R202 gives. -/
theorem State.withRange_endsPer (s t : State) (len : Nat) :
    EndsPer (rangeFault s len) (s.withRange s.base len (.next t)) := by
  rw [State.withRange_eq, rangeFault, State.base]
  by_cases h : len = 0 ∨ s.iReg.toNat + len ≤ 4096
  · rw [if_pos h, if_neg (by omega)]
    exact .next t
  · rw [if_neg h, if_pos (by omega)]
    exact .fault _

/-- The key check raises the fault R203 gives. -/
theorem State.withKey_endsPer (s : State) (x : Reg) {k : Bool → StepResult} (hk : ∀ down, EndsPer none (k down)) :
    EndsPer (keyFault s x) (s.withKey x k) := by
  rw [State.withKey_eq, keyFault]
  by_cases h : (s.reg x).toNat < 16
  · rw [dif_pos h, if_neg (by omega)]
    exact hk _
  · rw [dif_neg h, if_pos (by omega)]
    exact .fault _

theorem execRet_endsPer (s : State) : EndsPer (faultOf .ret s) (execRet s) := by
  rw [faultOf, execRet]
  cases s.stack with
  | nil => exact .fault _
  | cons top rest => exact .next _

theorem execCall_endsPer (nnn : Addr12) (s : State) : EndsPer (faultOf (.call nnn) s) (execCall nnn s) := by
  rw [faultOf, execCall]
  by_cases h : s.config.stackLimit = some s.stack.length
  · rw [if_pos h, if_pos (s.stackFull_iff.2 h)]
    exact .fault _
  · rw [if_neg h, if_neg (mt s.stackFull_iff.1 h)]
    exact .next _

/-- Every instruction ends as the table of R200 says. -/
theorem exec_endsPer (i : Instr) (s : State) : EndsPer (faultOf i s) (exec i s) := by
  cases i with
  | ret => exact execRet_endsPer s
  | call nnn => exact execCall_endsPer nnn s
  | drw | bcd | store | load => exact s.withRange_endsPer _ _
  | skp x | sknp x | keyWait x =>
    rw [faultOf, exec]
    exact s.withKey_endsPer x fun _ => .next _
  | _ => exact .next _

/-! ### How a step ends (R110, R111, R112) -/

theorem step_of_faulted {r : Fault} (hs : s.status = .faulted r) : step s = .fault r := by
  rw [step, hs]

/-- A fetch out of range faults with the first address above 4095 (R112, R200). -/
theorem step_of_fetch_outside (hs : s.status = .running) (hc : s.pc.toNat + 1 > 4095) :
    step s = .fault (.memRange s.pc (max s.pc.toNat 4096)) := by
  simp [step, hs, State.canFetch, State.fetchFault, firstOutside, raiseFault, Nat.not_le.2 hc]

theorem finishStep_ne_refused {o : StepResult} (h : ∀ r, o ≠ .refused r) (r : Refusal) : finishStep o ≠ .refused r := by
  cases o with
  | refused r' => exact absurd rfl (h r')
  | next _ => exact nofun
  | fault _ => exact nofun

theorem step_ne_refused (s : State) (r : Refusal) : step s ≠ .refused r := by
  obtain ⟨f, hs⟩ | hs := s.status.faulted_or_running
  · rw [step_of_faulted hs]
    exact nofun
  · rcases Nat.lt_or_ge 4095 (s.pc.toNat + 1) with hc | hc
    · rw [step_of_fetch_outside hs hc]
      exact nofun
    · rw [step_of_running hs hc]
      exact finishStep_ne_refused (exec_endsPer _ _).ne_refused r

theorem step_completes_iff (s : State) : (∃ t, step s = .next t) ↔ SafeStep s := by
  have hexec := (exec_endsPer (decode s.fetchWord) s.beginExecute).completes_iff
  simp only [step_next_iff, SafeStep, ← hexec]
  constructor
  · rintro ⟨_, hs, hc, u, hu, _⟩
    exact ⟨hs, hc, u, hu⟩
  · rintro ⟨hs, hc, u, hu⟩
    exact ⟨u.endStep, hs, hc, u, hu, rfl⟩

/-- Settles O44: the execute phase completes exactly where the table of R200 gives no fault, and no instruction is refused. -/
theorem stepCompletesExactlyWhenSafe : Obligations.StepCompletesExactlyWhenSafe :=
  fun s => ⟨step_completes_iff s, step_ne_refused s⟩

/-! ### The faulted machine (R111, R205) -/

theorem callStep_of_faulted {r : Fault} (hs : s.status = .faulted r) : callStep s = s := by
  rw [callStep, hs]

theorem callStep_of_step_fault {r : Fault} (hs : s.status = .running) (h : step s = .fault r) :
    callStep s = s.enterFault r := by
  rw [callStep, hs, h]

/-- No port writes the run status, and the step port leaves a faulted machine as it is. -/
theorem hostMove_status_of_faulted {r : Fault} {m : HostMove} (hs : s.status = .faulted r) (h : hostMove m s = .ok t) :
    t.status = .faulted r := by
  cases m with
  | load img =>
    obtain ⟨_, rfl⟩ := loadProgram_ok h
    exact hs
  | setKey k down =>
    obtain rfl := setKey_ok h
    exact hs
  | step =>
    obtain rfl := Except.ok.inj h
    rw [callStep_of_faulted hs, hs]

/-- Settles O7: no host move writes the status of a faulted machine, and the step port enters the fault a step answers. -/
theorem faultedIsTerminal : Obligations.FaultedIsTerminal := by
  refine ⟨fun s r hs => ⟨step_of_faulted hs, fun m t h => hostMove_status_of_faulted hs h⟩, fun s r hs h => ?_⟩
  refine ⟨s.enterFault r, ?_, rfl, rfl, fun _ => rfl, rfl⟩
  rw [hostMove, callStep_of_step_fault hs h]

/-! ### Fetch, execute, tick (R110, R117, R118) -/

theorem State.endStep_sound_iff (s : State) : s.endStep.sound = true ↔ s.endStep.st ≠ 0 := by
  rw [State.endStep_sound, State.endStep_st, decide_eq_true_eq]

/-- The instruction two bytes hold is the one their word decodes to. -/
theorem decode_wordOfBytes_of_decodeBytes {hi lo : Byte} {rest : List Byte} (h : decodeBytes [hi, lo] = .ok (i, rest)) :
    decode (wordOfBytes hi lo) = i :=
  congrArg Prod.fst (Except.ok.inj h)

/-- Settles O6: the step is the execute phase between `beginExecute` and `endStep`, each with its frame. -/
theorem stepRunsDecodedInstruction : Obligations.StepRunsDecodedInstruction := by
  refine fun s i hs => ⟨fun hc hbytes => ?_, step_of_fetch_outside hs⟩
  have hdecode : decode s.fetchWord = i := decode_wordOfBytes_of_decodeBytes hbytes
  refine ⟨rfl, rfl, onlyChanges_beginExecute s, fun t ht => ?_, fun r hr => ?_⟩
  · refine ⟨t.endStep, (step_next_iff s _).2 ⟨hs, hc, t, hdecode ▸ ht, rfl⟩, ?_⟩
    exact ⟨tickTimer_toNat t.dt, tickTimer_toNat t.st, t.endStep_sound_iff, onlyChanges_endStep t⟩
  · rw [step_of_running hs hc, hdecode, finishStep_fault_iff]
    exact hr

/-- Settles O31: the step of NOP is the advance and the tick alone. -/
theorem nopIsAFullStep : Obligations.NopIsAFullStep := by
  refine fun s => ⟨⟨s, rfl, OnlyChanges.refl s _⟩, fun hs hc hd => ?_⟩
  have hstep := step_of_nop hs hc hd
  exact ⟨_, hstep, rfl, tickTimer_toNat s.dt, tickTimer_toNat s.st, rfl, step_frame_of_nop hd hstep⟩

/-! ### The timers and the outputs after the execute phase (R116, R181, R182) -/

theorem execWrites_dt : execWrites s i .dt ↔ ∃ x, i = .ldDt x := by
  cases i <;> simp [execWrites]

theorem execWrites_st : execWrites s i .st ↔ ∃ x, i = .ldSt x := by
  cases i <;> simp [execWrites]

theorem execWrites_redraw : execWrites s i .redraw ↔ i = .cls ∨ ∃ x y n, i = .drw x y n := by
  cases i <;> simp [execWrites]

/-- Settles O8: of all instructions Fx15 alone writes DT and Fx18 alone ST, and the tick takes what the execute phase left. -/
theorem timersTickEveryStep : Obligations.TimersTickEveryStep := by
  intro s t h
  obtain ⟨-, -, u, hu, rfl⟩ := (step_next_iff s t).1 h
  rw [State.endStep_dt, State.endStep_st, tickTimer_toNat, tickTimer_toNat]
  constructor
  · split
    · next x hd =>
      rw [hd] at hu
      obtain rfl := Host.Outcome.next.inj hu
      rfl
    · next hd =>
      have hdt : u.dt = s.dt := exec_frame hu .dt fun hw => (execWrites_dt.1 hw).elim hd
      rw [hdt]
  · split
    · next x hd =>
      rw [hd] at hu
      obtain rfl := Host.Outcome.next.inj hu
      rfl
    · next hd =>
      have hst : u.st = s.st := exec_frame hu .st fun hw => (execWrites_st.1 hw).elim hd
      rw [hst]

/-- CLS and DRW ask for a redraw whenever they complete (D17). -/
theorem exec_redraw_of_draws (hi : i = .cls ∨ ∃ x y n, i = .drw x y n) (h : exec i s = .next t) : t.redraw = true := by
  obtain rfl | ⟨x, y, n, rfl⟩ := hi
  · obtain rfl := Host.Outcome.next.inj h
    rfl
  · obtain ⟨_, hk⟩ := State.withRange_next h
    obtain rfl := Host.Outcome.next.inj hk
    rfl

/-- Settles O9: the execute phase begins with the redraw output cleared, and CLS and DRW alone write it. -/
theorem stepOutputsAreTheHints : Obligations.StepOutputsAreTheHints := by
  intro s t h
  obtain ⟨-, -, u, hu, rfl⟩ := (step_next_iff s t).1 h
  refine ⟨⟨fun hredraw => ?_, fun hd => (exec_redraw_of_draws hd hu : u.redraw = true)⟩, u.endStep_sound_iff⟩
  by_contra hd
  have hclear : u.redraw = false := exec_frame hu .redraw (mt execWrites_redraw.1 hd)
  exact Bool.false_ne_true (hclear.symm.trans hredraw)

end Sys2Proof.Machine

/-! ### A jump to itself (R121, R130) -/

namespace Sys2Proof.Machine

variable {s t : State} {nnn : Addr12}

theorem addrWord_eq_iff (nnn : Addr12) (w : Word) : addrWord nnn = w ↔ nnn.toNat = w.toNat := by
  rw [← BitVec.toNat_inj, addrWord, BitVec.zeroExtend_eq_setWidth, BitVec.toNat_setWidth_of_le (by decide)]

theorem State.endOfRun_iff_of_jp (hs : s.status = .running) (hc : s.pc.toNat + 1 ≤ 4095)
    (hd : decode s.fetchWord = .jp nnn) : s.endOfRun = true ↔ nnn.toNat = s.pc.toNat := by
  simp [State.endOfRun_iff, hs, hc, hd, addrWord_eq_iff]

theorem State.endOfRun_of_faulted {r : Fault} (hs : s.status = .faulted r) : s.endOfRun = false := by
  simp [State.endOfRun, hs]

/-- The state one step after a jump to itself: back at the same pc, the timers ticked. -/
def State.spin (s : State) : State := (s.beginExecute.setPc s.pc).endStep

theorem step_of_endOfRun (h : s.endOfRun = true) : step s = .next s.spin := by
  obtain ⟨hs, hc, nnn, hd, hpc⟩ := s.endOfRun_iff.1 h
  rw [step_of_running hs hc, hd, State.spin, ← hpc]
  rfl

theorem State.spin_endOfRun (s : State) : s.spin.endOfRun = s.endOfRun := rfl

theorem State.spin_dt_toNat (s : State) : s.spin.dt.toNat = s.dt.toNat - 1 := tickTimer_toNat s.dt

theorem State.spin_st_toNat (s : State) : s.spin.st.toNat = s.st.toNat - 1 := tickTimer_toNat s.st

theorem onlyChanges_spin (s : State) : OnlyChanges s s.spin (· ∈ [.dt, .st, .redraw, .sound, .loadOpen]) := by
  intro p hp
  cases p with
  | dt | st | redraw | sound | loadOpen => exact absurd (by decide) hp
  | _ => rfl

/-- From the end of a run any number of steps complete, and each leaves the machine at its end. -/
theorem runSteps_of_endOfRun (count : Nat) (h : s.endOfRun = true) :
    ∃ t, runSteps count s = .next t ∧ t.endOfRun = true ∧ t.dt.toNat = s.dt.toNat - count ∧
      t.st.toNat = s.st.toNat - count ∧ OnlyChanges s t (· ∈ [.dt, .st, .redraw, .sound, .loadOpen]) := by
  induction count generalizing s with
  | zero => exact ⟨s, rfl, h, rfl, rfl, OnlyChanges.refl s _⟩
  | succ n ih =>
    obtain ⟨t, hrun, hend, hdt, hst, hframe⟩ := ih (s.spin_endOfRun.trans h)
    rw [State.spin_dt_toNat] at hdt
    rw [State.spin_st_toNat] at hst
    exact ⟨t, (runSteps_succ n s t).2 ⟨_, step_of_endOfRun h, hrun⟩, hend, by omega, by omega,
      (onlyChanges_spin s).trans hframe⟩

/-- Settles O52: a jump to itself is an end of run, and every step from one spins in place. -/
theorem jumpToSelfRunsForever : Obligations.JumpToSelfRunsForever := by
  intro s nnn count hs hc hd hself
  obtain ⟨t, hrun, -, hrest⟩ := runSteps_of_endOfRun count ((State.endOfRun_iff_of_jp hs hc hd).2 hself)
  exact ⟨t, hrun, hrest⟩

/-- Settles O53: the predicate reads nothing that the step of a jump to itself changes. -/
theorem endOfRunIsStable : Obligations.EndOfRunIsStable := by
  refine ⟨fun s nnn => State.endOfRun_iff_of_jp, fun s r => State.endOfRun_of_faulted, fun s count h => ?_⟩
  obtain ⟨t, hrun, hend, -, -, hframe⟩ := runSteps_of_endOfRun count h
  exact ⟨t, hrun, hend, hframe⟩

end Sys2Proof.Machine

/-! ### Control transfer (41_control_transfer.md) -/

namespace Sys2Proof.Machine

variable {s t : State} {nnn : Addr12}

/-! ### The targets (R83, R133) -/

theorem addrWord_toNat (nnn : Addr12) : (addrWord nnn).toNat = nnn.toNat :=
  ((addrWord_eq_iff nnn _).1 rfl).symm

/-- The sum of the indexed jump does not wrap: it is at most 4095 + 255 (R24, D25). -/
theorem addrWord_add_byteWord_toNat (nnn : Addr12) (b : Byte) : (addrWord nnn + byteWord b).toNat = nnn.toNat + b.toNat := by
  have hb : (byteWord b).toNat = b.toNat := BitVec.toNat_setWidth_of_le (by decide)
  have hn := nnn.isLt
  have hlt := b.isLt
  rw [BitVec.toNat_add_of_lt (by rw [addrWord_toNat, hb]; omega), addrWord_toNat, hb]

theorem State.jumpOffset_of_v0 (h : s.config.jumpMode = .v0) : s.jumpOffset nnn = s.reg 0 := by
  rw [State.jumpOffset, h]

theorem State.jumpOffset_of_vx (h : s.config.jumpMode = .vx) {x : Reg} (hx : x.val = nnn.toNat / 256) :
    s.jumpOffset nnn = s.reg x := by
  have hreg : jumpReg nnn = x := Fin.ext ((jumpReg_val nnn).trans hx.symm)
  rw [State.jumpOffset, h, hreg]

/-! ### Call and return (R131, R132) -/

theorem exec_call_of_limit_ne (h : s.config.stackLimit ≠ some s.stack.length) :
    exec (.call nnn) s = .next ((s.push s.pc).setPc (addrWord nnn)) :=
  if_neg (mt s.stackFull_iff.1 h)

theorem exec_call_of_limit_eq (h : s.config.stackLimit = some s.stack.length) :
    exec (.call nnn) s = .fault (.stackOverflow (s.pc - 2)) :=
  if_pos (s.stackFull_iff.2 h)

theorem exec_ret_of_stack_cons {top : Word} {rest : List Word} (h : s.stack = top :: rest) :
    exec .ret s = .next { s with stack := rest, pc := top } := by
  rw [exec, execRet, h]

/-- A completed step of CALL: the pc after the call lies on the stack, and the machine is at the target (R131). -/
theorem step_call_next (hd : decode s.fetchWord = .call nnn) (h : step s = .next t) :
    t.status = .running ∧ t.pc = addrWord nnn ∧ t.stack = (s.pc + 2) :: s.stack := by
  obtain ⟨hs, -, u, hu, rfl⟩ := (step_next_iff s t).1 h
  rw [hd] at hu
  obtain ⟨-, rfl⟩ := execCall_next hu
  exact ⟨hs, rfl, rfl⟩

/-- A step of RET on a stack that is not empty completes and takes its top as pc (R132). -/
theorem step_ret_completes {top : Word} {rest : List Word} (hs : s.status = .running) (hc : s.pc.toNat + 1 ≤ 4095)
    (hd : decode s.fetchWord = .ret) (hstack : s.stack = top :: rest) :
    Completes (step s) fun u => u.pc = top ∧ u.stack = rest := by
  have hexec := exec_ret_of_stack_cons (s := s.beginExecute) hstack
  exact ⟨_, (step_next_iff s _).2 ⟨hs, hc, _, hd ▸ hexec, rfl⟩, rfl, rfl⟩

/-- Neither a step of CALL nor one of RET changes I, a register or memory (R131, R132). -/
theorem step_callOrRet_keeps (hd : decode s.fetchWord = .ret ∨ ∃ nnn, decode s.fetchWord = .call nnn)
    (h : step s = .next t) : t.iReg = s.iReg ∧ (∀ r, t.reg r = s.reg r) ∧ ∀ a, t.byte a = s.byte a := by
  have hframe : OnlyChanges s t fun p => p ∈ stepParts ∨ p ∈ [.pc, .stack] := by
    have := step_frame h
    obtain hd | ⟨nnn, hd⟩ := hd <;> rwa [hd] at this
  exact ⟨hframe .iReg (by simp [stepParts]), fun r => hframe (.reg r) (by simp [stepParts]),
    fun a => hframe (.byte a) (by simp [stepParts])⟩

/-- Settles O19: the call leaves on top of the stack what the return takes off, and neither writes I, a register or memory. -/
theorem callThenReturnComesBack : Obligations.CallThenReturnComesBack := by
  intro s t nnn hcall hdcall htarget hdret
  obtain ⟨hrun, hpc, hstack⟩ := step_call_next hdcall hcall
  have hfetch : t.pc.toNat + 1 ≤ 4095 := by rwa [hpc, addrWord_toNat]
  obtain ⟨u, hret, hupc, hustack⟩ := step_ret_completes hrun hfetch hdret hstack
  obtain ⟨hi, hreg, hbyte⟩ := step_callOrRet_keeps (.inr ⟨nnn, hdcall⟩) hcall
  obtain ⟨hi', hreg', hbyte'⟩ := step_callOrRet_keeps (.inl hdret) hret
  exact ⟨u, hret, hupc, hustack, hi'.trans hi, fun r => (hreg' r).trans (hreg r), fun a => (hbyte' a).trans (hbyte a)⟩

/-- Settles O17: the limit check lets the call complete exactly below the limit. -/
theorem callPushesAdvancedPc : Obligations.CallPushesAdvancedPc := by
  refine fun nnn s => ⟨fun hbelow => ?_, exec_call_of_limit_eq⟩
  have hcall := exec_call_of_limit_ne (nnn := nnn) hbelow
  exact ⟨_, hcall, rfl, addrWord_toNat nnn, exec_frame hcall⟩

/-! ### Jumps (R130, R133) -/

/-- Settles O16: the jump is one write of pc. -/
theorem jumpSetsPc : Obligations.JumpSetsPc :=
  fun nnn s => ⟨s.setPc (addrWord nnn), rfl, addrWord_toNat nnn, onlyChanges_setPc s _⟩

/-- Settles O20: the jump is one write of pc, and its sum does not wrap. -/
theorem indexedJumpAddsOffset : Obligations.IndexedJumpAddsOffset := by
  intro nnn s
  have hsum := addrWord_add_byteWord_toNat nnn (s.jumpOffset nnn)
  refine ⟨s.setPc (addrWord nnn + byteWord (s.jumpOffset nnn)), rfl, fun hmode => ?_, fun hmode x hx => ?_,
    onlyChanges_setPc s _⟩
  · rwa [State.jumpOffset_of_v0 hmode] at hsum ⊢
  · rwa [State.jumpOffset_of_vx hmode hx] at hsum ⊢

end Sys2Proof.Machine

/-! ### Conditional skip (42_conditional_skip.md) -/

namespace Sys2Proof.Machine

variable {s : State} {x : Reg} {c : Bool} {P : Prop} [Decidable P]

/-! ### The skip (R146) -/

/-- The rule of the shared skip; all six instructions of the family use it, with `P` the condition of the spec. -/
theorem State.skipIf_completes_of_iff (s : State) (h : c = true ↔ P) :
    Completes (s.skipIf c) fun t => t.pc = (if P then s.pc + 2 else s.pc) ∧ OnlyChanges s t (· ∈ [.pc]) := by
  refine ⟨_, rfl, ?_, onlyChanges_of_setPc (State.skipIf_next rfl)⟩
  rw [apply_ite State.pc]
  exact if_congr h rfl rfl

theorem State.skipIf_completes_of_iff_not (s : State) (h : c = true ↔ ¬ P) :
    Completes (s.skipIf c) fun t => t.pc = (if P then s.pc else s.pc + 2) ∧ OnlyChanges s t (· ∈ [.pc]) := by
  simpa only [ite_not] using s.skipIf_completes_of_iff h

/-! ### Bytes compared (R140 to R143) -/

theorem beq_iff_toNat_eq (a b : Byte) : (a == b) = true ↔ a.toNat = b.toNat :=
  beq_iff_eq.trans BitVec.toNat_inj.symm

theorem bne_iff_toNat_ne (a b : Byte) : (a != b) = true ↔ ¬ a.toNat = b.toNat :=
  bne_iff_ne.trans (not_congr BitVec.toNat_inj.symm)

/-- Settles O21: each of the four is one skip, on two bytes compared. -/
theorem compareSkips : Obligations.CompareSkips :=
  fun x y nn s =>
    ⟨s.skipIf_completes_of_iff (beq_iff_toNat_eq (s.reg x) nn),
      s.skipIf_completes_of_iff_not (bne_iff_toNat_ne (s.reg x) nn),
      s.skipIf_completes_of_iff (beq_iff_toNat_eq (s.reg x) (s.reg y)),
      s.skipIf_completes_of_iff_not (bne_iff_toNat_ne (s.reg x) (s.reg y))⟩

/-! ### The key V[x] names (R144, R145, R203) -/

theorem State.withKey_of_reg_eq {k : Fin 16} (h : (s.reg x).toNat = k.val) (f : Bool → StepResult) :
    s.withKey x f = f (s.key k) := by
  have hk : (⟨(s.reg x).toNat, h ▸ k.isLt⟩ : Fin 16) = k := Fin.ext h
  rw [State.withKey_eq, dif_pos (h ▸ k.isLt), hk]

theorem State.withKey_of_reg_gt (h : (s.reg x).toNat > 15) (f : Bool → StepResult) :
    s.withKey x f = .fault (.keyRange (s.pc - 2) (s.reg x)) :=
  (s.withKey_eq x f).trans (dif_neg (by omega))

theorem exec_skp (x : Reg) (s : State) : exec (.skp x) s = s.withKey x fun down => s.skipIf down := rfl

theorem exec_sknp (x : Reg) (s : State) : exec (.sknp x) s = s.withKey x fun down => s.skipIf (!down) := rfl

/-- Settles O22: a key that exists is one skip on its level; one above 15 stops at the key check (D10). -/
theorem keySkips : Obligations.KeySkips := by
  intro x s
  rw [exec_skp, exec_sknp]
  refine ⟨fun k hk => ?_, fun habove => ⟨State.withKey_of_reg_gt habove _, State.withKey_of_reg_gt habove _⟩⟩
  rw [State.withKey_of_reg_eq hk, State.withKey_of_reg_eq hk]
  have hup : (!s.key k) = true ↔ ¬ s.key k = true := by simp
  exact ⟨s.skipIf_completes_of_iff Iff.rfl, s.skipIf_completes_of_iff_not hup⟩

end Sys2Proof.Machine

/-! ### Arithmetic, logic, shift and random (43_arithmetic_logic.md) -/

namespace Sys2Proof.Machine

/-! ### One register written (R150 to R155, R162) -/

theorem State.setReg_reg_same (s : State) (x : Reg) (b : Byte) : (s.setReg x b).reg x = b := by
  rw [State.setReg_reg, if_pos rfl]

theorem State.setReg_completes (s : State) (x : Reg) (b : Byte) :
    Completes (.next (s.setReg x b)) fun t => t.reg x = b ∧ OnlyChanges s t (· ∈ [.reg x]) :=
  ⟨_, rfl, s.setReg_reg_same x b, onlyChanges_setReg s x b⟩

theorem Completes.mono {o : StepResult} {post post' : State → Prop} (h : Completes o post)
    (hpost : ∀ t, post t → post' t) : Completes o post' := by
  obtain ⟨t, ht, hp⟩ := h
  exact ⟨t, ht, hpost t hp⟩

/-- The rule of the bitwise operations: a byte written, given bit by bit. -/
theorem State.setReg_completes_bits {b : Byte} {f : Nat → Bool} (s : State) (x : Reg) (hf : ∀ k, b.getLsbD k = f k) :
    Completes (.next (s.setReg x b)) fun t => OnlyChanges s t (· ∈ [.reg x]) ∧ ∀ k < 8, (t.reg x).getLsbD k = f k :=
  (s.setReg_completes x b).mono fun _ ⟨hreg, hframe⟩ => ⟨hframe, fun k _ => hreg ▸ hf k⟩

/-- Settles O25: the immediate add is one write of V[x], of the sum of two bytes. -/
theorem addImmediateWraps : Obligations.AddImmediateWraps :=
  fun x nn s => (s.setReg_completes x (s.reg x + nn)).mono fun _ ⟨hreg, hframe⟩ =>
    ⟨hreg ▸ BitVec.toNat_add (s.reg x) nn, hframe⟩

/-- Settles O26: each of the five is one write of V[x]. -/
theorem loadsAndBitwise : Obligations.LoadsAndBitwise :=
  fun x y nn s =>
    ⟨s.setReg_completes x nn,
      s.setReg_completes x (s.reg y),
      s.setReg_completes_bits x fun _ => BitVec.getLsbD_or,
      s.setReg_completes_bits x fun _ => BitVec.getLsbD_and,
      s.setReg_completes_bits x fun _ => BitVec.getLsbD_xor⟩

/-- Settles O30: the byte written is the conjunction of the drawn byte and the mask, and the one draw advances the index. -/
theorem randomByteUnderMask : Obligations.RandomByteUnderMask := by
  intro x nn s
  have hbit (k : Nat) : (s.rndByte &&& nn).getLsbD k = (nn.getLsbD k && s.rndByte.getLsbD k) := by
    rw [BitVec.getLsbD_and, Bool.and_comm]
  refine ⟨s.consumeRnd.setReg x (s.rndByte &&& nn), rfl, fun k _ => ?_, rfl, ?_⟩
  · rw [State.setReg_reg_same]
    exact hbit k
  · exact exec_frame (i := .rnd x nn) rfl

/-! ### The flag values (R156, R157, R159 to R161) -/

theorem flagByte_decide_toNat (P : Prop) [Decidable P] : (flagByte (decide P)).toNat = if P then 1 else 0 := by
  by_cases h : P <;> simp [h]

theorem carryFlag_toNat (a b : Byte) : (carryFlag a b).toNat = if a.toNat + b.toNat > 255 then 1 else 0 :=
  flagByte_decide_toNat _

theorem noBorrowFlag_toNat (a b : Byte) : (noBorrowFlag a b).toNat = if a.toNat ≥ b.toNat then 1 else 0 :=
  flagByte_decide_toNat _

theorem flagByte_getLsbD_toNat (b : Byte) (k : Nat) : (flagByte (b.getLsbD k)).toNat = b.toNat / 2 ^ k % 2 :=
  (flagByte_toNat _).trans (Nat.toNat_testBit b.toNat k)

theorem shiftedOutLow_toNat (b : Byte) : (shiftedOutLow b).toNat = b.toNat % 2 := by
  rw [shiftedOutLow, flagByte_getLsbD_toNat, pow_zero, Nat.div_one]

theorem shiftedOutHigh_toNat (b : Byte) : (shiftedOutHigh b).toNat = b.toNat / 128 := by
  have hlt := b.isLt
  rw [shiftedOutHigh, flagByte_getLsbD_toNat]
  omega

/-! ### The results modulo 256 -/

theorem sub_toNat (a b : Byte) : (a - b).toNat = (a.toNat + 256 - b.toNat) % 256 := by
  have hlt := b.isLt
  rw [BitVec.toNat_sub]
  omega

theorem ushiftRight_one_toNat (b : Byte) : (b >>> 1).toNat = b.toNat / 2 := by
  rw [BitVec.toNat_ushiftRight, Nat.shiftRight_one]

theorem shiftLeft_one_toNat (b : Byte) : (b <<< 1).toNat = b.toNat * 2 % 256 := by
  rw [BitVec.toNat_shiftLeft, Nat.shiftLeft_eq, pow_one]

/-! ### Flag, then result (R158, D11) -/

/-- The write order of D11 for every instruction that writes a flag: the result always reaches V[x]; the flag is VF unless the
result replaces it. -/
theorem State.flagThenResult_completes {f r : Byte} {m n : Nat} (s : State) (x : Reg) (hr : r.toNat = m) (hf : f.toNat = n) :
    Completes (.next (s.flagThenResult x f r)) fun t =>
      (t.reg x).toNat = m ∧ (x ≠ 15 → (t.reg 15).toNat = n) ∧ OnlyChanges s t (· ∈ [.reg x, .reg 15]) := by
  refine ⟨_, rfl, ?_, fun hx => ?_, onlyChanges_flagThenResult s x f r⟩
  · rw [State.flagThenResult_reg, if_pos rfl, hr]
  · rw [State.flagThenResult_reg, if_neg hx.symm, if_pos (show 15 = VF from rfl), hf]

/-- Settles O27: the sum and its carry, in the write order of D11. -/
theorem addSetsCarry : Obligations.AddSetsCarry :=
  fun x y s => s.flagThenResult_completes x (BitVec.toNat_add (s.reg x) (s.reg y)) (carryFlag_toNat (s.reg x) (s.reg y))

/-- Settles O28: the difference and its no-borrow, in the write order of D11; 8xy7 exchanges the operands (D29). -/
theorem subtractSetsNoBorrow : Obligations.SubtractSetsNoBorrow :=
  fun x y s =>
    ⟨s.flagThenResult_completes x (sub_toNat (s.reg x) (s.reg y)) (noBorrowFlag_toNat (s.reg x) (s.reg y)),
      s.flagThenResult_completes x (sub_toNat (s.reg y) (s.reg x)) (noBorrowFlag_toNat (s.reg y) (s.reg x))⟩

/-! ### The shifts (R159, R161, D13) -/

/-- A byte that is V[x] in the mode in place and V[y] in the mode copy_vy is the source of the shift. -/
theorem State.shiftSource_eq {s : State} {x y : Reg} {b : Byte} (hin : s.config.shiftMode = .inPlace → b = s.reg x)
    (hcopy : s.config.shiftMode = .copyVy → b = s.reg y) : s.shiftSource x y = b := by
  rw [State.shiftSource]
  cases hmode : s.config.shiftMode with
  | inPlace => exact (hin hmode).symm
  | copyVy => exact (hcopy hmode).symm

/-- Settles O29: the source SHIFT_MODE names, shifted, and the bit shifted out, in the write order of D11. -/
theorem shiftsSetShiftedOutBit : Obligations.ShiftsSetShiftedOutBit := by
  intro x y s b hin hcopy
  obtain rfl := State.shiftSource_eq hin hcopy
  exact ⟨s.flagThenResult_completes x (ushiftRight_one_toNat _) (shiftedOutLow_toNat _),
    s.flagThenResult_completes x (shiftLeft_one_toNat _) (shiftedOutHigh_toNat _)⟩

end Sys2Proof.Machine

/-! ### Display (44_display.md) -/

namespace Sys2Proof.Machine

variable {s t : State} {x y : Reg} {n : Nat}

/-- Settles O32: CLS is one new display, the clear one. -/
theorem clearTurnsEveryCellOff : Obligations.ClearTurnsEveryCellOff :=
  fun s => ⟨s.setDisplay Display.clear, rfl, Display.clear_pixel, rfl, exec_frame (i := .cls) rfl⟩

/-! ### The sprite draw (R171) -/

theorem exec_drw_of_inRange (h : n = 0 ∨ s.iReg.toNat + n ≤ 4096) :
    exec (.drw x y n) s =
      .next ((s.setDisplay (s.drawSprite (s.spriteX x) (s.spriteY y) s.base n).1).setReg VF
        (flagByte (s.drawSprite (s.spriteX x) (s.spriteY y) s.base n).2)) :=
  (s.withRange_eq s.base n _).trans (if_pos h)

/-- `State.drawSprite_spec` at the coordinates DRW takes, where the cells drawn are `State.sprite`. -/
theorem State.drawSprite_sprite (s : State) (x y : Reg) (n : Nat) :
    (∀ px py, (s.drawSprite (s.spriteX x) (s.spriteY y) s.base n).1.pixel px py =
      (s.display.pixel px py ^^ s.sprite x y n px py)) ∧
    ((s.drawSprite (s.spriteX x) (s.spriteY y) s.base n).2 = true ↔
      ∃ px py, s.sprite x y n px py = true ∧ s.display.pixel px py = true) :=
  s.drawSprite_spec (s.spriteX x) (s.spriteY y) s.base n

/-- A sprite bit lies inside the sprite and inside the grid. -/
theorem State.sprite_clipped {px py : Nat} (h : s.sprite x y n px py = true) :
    (s.reg x).toNat % 64 ≤ px ∧ px ≤ min ((s.reg x).toNat % 64 + 7) 63 ∧
      (s.reg y).toNat % 32 ≤ py ∧ py ≤ min ((s.reg y).toNat % 32 + n - 1) 31 := by
  have hcell := of_decide_eq_true (Bool.and_eq_true_iff.1 h).1
  omega

/-- The sprite depends on I, on memory and on the reduced coordinates only. -/
theorem State.sprite_congr (hI : t.iReg = s.iReg) (hbyte : ∀ a, t.byte a = s.byte a)
    (hx : (t.reg x).toNat % 64 = (s.reg x).toNat % 64) (hy : (t.reg y).toNat % 32 = (s.reg y).toNat % 32) :
    t.sprite x y n = s.sprite x y n := by
  funext px py
  simp only [State.sprite, hI, hbyte, hx, hy]

/-- Settles O33: the buffer and the collision are those of `State.drawSprite_sprite`, and a changed cell holds a sprite bit. -/
theorem drawXorsSpriteAndReportsCollision : Obligations.DrawXorsSpriteAndReportsCollision := by
  intro x y n s hrange
  obtain ⟨hpix, hcol⟩ := s.drawSprite_sprite x y n
  refine ⟨_, exec_drw_of_inRange hrange, hpix, fun hhit => ?_, fun hmiss => ?_, rfl, ?_⟩
  · rw [VF, State.setReg_reg_same, hcol.2 hhit]
    rfl
  · rw [VF, State.setReg_reg_same, Bool.eq_false_of_not_eq_true (mt hcol.1 hmiss)]
    rfl
  · refine ((onlyChanges_setDisplay s _).mono ?_).trans
      ((onlyChanges_setReg _ VF _).mono fun p hp => .inl (List.mem_singleton.1 hp))
    rintro p (rfl | ⟨px, py, rfl, hne⟩)
    · exact .inr (.inl rfl)
    · have hbit : s.sprite x y n px py = true := by
        by_contra hoff
        exact hne (by rw [hpix, Bool.eq_false_of_not_eq_true hoff, Bool.xor_false])
      exact .inr (.inr ⟨px, py, rfl, State.sprite_clipped hbit⟩)

/-! ### Two draws, and a draw after CLS (R172) -/

/-- Settles O34: the second draw XORs the same sprite, and under a sprite bit the first has inverted the cell. -/
theorem drawTwiceRestores : Obligations.DrawTwiceRestores := by
  intro x y n s t h hx hy
  obtain ⟨hrange, -⟩ := State.withRange_next h
  obtain ⟨t', ht', hfirst, -⟩ := drawXorsSpriteAndReportsCollision x y n s hrange
  obtain rfl := Host.Outcome.next.inj (h.symm.trans ht')
  have hI : t.iReg = s.iReg := exec_frame h .iReg (by simp [execWrites])
  have hbyte (a : Nat) : t.byte a = s.byte a := exec_frame h (.byte a) (by simp [execWrites])
  have hsprite : t.sprite x y n = s.sprite x y n := State.sprite_congr hI hbyte hx hy
  have hhit (px py : Nat) : s.sprite x y n px py = true ∧ t.display.pixel px py = true ↔
      s.sprite x y n px py = true ∧ s.display.pixel px py = false := by
    rw [hfirst]
    exact and_congr_right fun hbit => by rw [hbit, Bool.xor_true, Bool.not_eq_true']
  refine (drawXorsSpriteAndReportsCollision x y n t (hI ▸ hrange)).mono ?_
  rintro u ⟨hsecond, hvf, hvf', -, -⟩
  simp only [hsprite, hhit] at hsecond hvf hvf'
  refine ⟨fun px py => ?_, hvf, hvf'⟩
  rw [hsecond, hfirst, Bool.xor_assoc, Bool.xor_self, Bool.xor_false]

/-- Settles O35: on a clear buffer the XOR is the sprite itself, and no sprite bit lands on a cell that is on. -/
theorem drawAfterClearIsTheSprite : Obligations.DrawAfterClearIsTheSprite := by
  intro x y n s t h hrange
  obtain rfl := Host.Outcome.next.inj h
  refine (drawXorsSpriteAndReportsCollision x y n (s.setDisplay Display.clear) hrange).mono ?_
  rintro u ⟨hpix, -, hvf, -, -⟩
  refine ⟨fun px py => ?_, hvf ?_⟩
  · rw [hpix, State.setDisplay_display, Display.clear_pixel, Bool.false_xor]
    rfl
  · rintro ⟨px, py, -, hon⟩
    rw [State.setDisplay_display, Display.clear_pixel] at hon
    cases hon

end Sys2Proof.Machine

/-! ### Timers and key-wait (45_timers_keys.md) -/

namespace Sys2Proof.Machine

variable {s : State} {x : Reg} {k : Fin 16}

/-! ### One key-wait (R183) -/

theorem exec_keyWait (x : Reg) (s : State) :
    exec (.keyWait x) s = s.withKey x fun down => .next (if down then s else s.setPc (s.pc - 2)) := rfl

theorem exec_keyWait_of_reg_eq (h : (s.reg x).toNat = k.val) :
    exec (.keyWait x) s = .next (if s.key k = true then s else s.setPc (s.pc - 2)) := by
  rw [exec_keyWait, State.withKey_of_reg_eq h]

theorem exec_keyWait_of_reg_gt (h : (s.reg x).toNat > 15) :
    exec (.keyWait x) s = .fault (.keyRange (s.pc - 2) (s.reg x)) := by
  rw [exec_keyWait, State.withKey_of_reg_gt h]

/-- Settles O23: the key check decides whether there is a key, and its level whether pc is written. -/
theorem keyWaitRewindsWhileUp : Obligations.KeyWaitRewindsWhileUp := by
  refine fun x s => ⟨fun k hk => ?_, exec_keyWait_of_reg_gt⟩
  have hexec := exec_keyWait_of_reg_eq hk
  exact ⟨_, hexec, apply_ite State.pc _ _ _, onlyChanges_of_setPc (execKeyWait_next hexec)⟩

/-! ### Steps at a key-wait (R183, R237) -/

/-- The machine is about to execute a key-wait on the key `k`, whose level is `down`. -/
structure State.AtKeyWait (s : State) (x : Reg) (k : Fin 16) (down : Bool) : Prop where
  running : s.status = .running
  inRange : s.pc.toNat + 1 ≤ 4095
  decodes : decode s.fetchWord = .keyWait x
  names : (s.reg x).toNat = k.val
  level : s.key k = down

theorem State.AtKeyWait.step_eq {down : Bool} (h : s.AtKeyWait x k down) :
    step s = finishStep (.next (if down = true then s.beginExecute else s.beginExecute.setPc s.pc)) := by
  have hback : s.beginExecute.pc - 2 = s.pc := BitVec.add_sub_cancel s.pc 2
  rw [step_of_running h.running h.inRange, h.decodes, exec_keyWait_of_reg_eq (s := s.beginExecute) h.names,
    State.beginExecute_key, h.level, hback]

/-- While the key is up the step is that of a jump to itself. -/
theorem State.AtKeyWait.step_up (h : s.AtKeyWait x k false) : step s = .next s.spin := h.step_eq

/-- Once the key is down the step is that of NOP. -/
theorem State.AtKeyWait.step_down (h : s.AtKeyWait x k true) : step s = .next s.beginExecute.endStep := h.step_eq

theorem State.AtKeyWait.spin {down : Bool} (h : s.AtKeyWait x k down) : s.spin.AtKeyWait x k down :=
  ⟨h.running, h.inRange, h.decodes, h.names, h.level⟩

/-- The host's key write changes the level and nothing else a key-wait reads (R217). -/
theorem State.AtKeyWait.of_setKey {u : State} {down down' : Bool} (h : s.AtKeyWait x k down)
    (hkey : setKey k.val down' s = .ok u) : u.AtKeyWait x k down' := by
  obtain rfl := setKey_ok hkey
  exact ⟨h.running, h.inRange, h.decodes, h.names, Vector.getElem_setIfInBounds_self k.isLt⟩

/-- Where every state of a class spins back into it, any number of steps complete, each a tick of the timers. -/
theorem runSteps_of_spins {P : State → Prop} (hP : ∀ s, P s → step s = .next s.spin ∧ P s.spin) (count : Nat)
    (hs : P s) : ∃ t, runSteps count s = .next t ∧ P t ∧ t.dt.toNat = s.dt.toNat - count ∧
      t.st.toNat = s.st.toNat - count ∧ OnlyChanges s t (· ∈ [.dt, .st, .redraw, .sound, .loadOpen]) := by
  induction count generalizing s with
  | zero => exact ⟨s, rfl, hs, rfl, rfl, OnlyChanges.refl s _⟩
  | succ n ih =>
    obtain ⟨hstep, hspin⟩ := hP s hs
    obtain ⟨t, hrun, ht, hdt, hst, hframe⟩ := ih hspin
    rw [State.spin_dt_toNat, Nat.sub_sub, Nat.add_comm] at hdt
    rw [State.spin_st_toNat, Nat.sub_sub, Nat.add_comm] at hst
    exact ⟨t, (runSteps_succ n s t).2 ⟨_, hstep, hrun⟩, ht, hdt, hst, (onlyChanges_spin s).trans hframe⟩

/-- Settles O24: the waiting machine spins at its key-wait, and the key write turns the next step into one of NOP. -/
theorem keyWaitRepeatsUntilPressed : Obligations.KeyWaitRepeatsUntilPressed := by
  intro s x k count hs hc hd hk hup
  obtain ⟨t, hrun, hwait, hdt, hst, hframe⟩ := runSteps_of_spins (P := (State.AtKeyWait · x k false))
    (fun _ h => ⟨h.step_up, h.spin⟩) count ⟨hs, hc, hd, hk, hup⟩
  refine ⟨t, hrun, hdt, hst, hframe, fun u hpress => ?_⟩
  have hstep := (hwait.of_setKey hpress).step_down
  obtain rfl := setKey_ok hpress
  have hpc : t.pc = s.pc := hframe .pc (by decide)
  have hreg : ∀ r, t.reg r = s.reg r := fun r => hframe (.reg r) (by simp)
  exact ⟨_, hstep, congrArg (· + 2) hpc, hreg⟩

/-! ### Timer transfers (R180, R181, R182) -/

theorem State.endStep_sound_iff_two_le (s : State) : s.endStep.sound = true ↔ 2 ≤ s.st.toNat := by
  rw [State.endStep_sound_iff, State.endStep_st, ne_eq, ← BitVec.toNat_inj, tickTimer_toNat]
  change ¬ s.st.toNat - 1 = 0 ↔ _
  omega

/-- Settles O36: each is one write, of V[x] or of a timer, and the end of the step ticks what it finds. -/
theorem timerTransfers : Obligations.TimerTransfers := by
  intro x s
  have hx := s.setReg_reg_same x s.dt
  exact
    ⟨⟨s.setReg x s.dt, rfl, hx, hx, tickTimer_toNat s.dt, onlyChanges_setReg s x s.dt⟩,
      ⟨s.setDt (s.reg x), rfl, rfl, tickTimer_toNat _, onlyChanges_setDt s _⟩,
      ⟨s.setSt (s.reg x), rfl, rfl, tickTimer_toNat _, State.endStep_sound_iff_two_le _, onlyChanges_setSt s _⟩⟩

end Sys2Proof.Machine

/-! ### Address register and memory (46_index_memory.md) -/

namespace Sys2Proof.Machine

variable {s : State} {x : Reg}

/-! ### The writers of I (R190, R191, R192) -/

theorem byteWord_toNat (b : Byte) : (byteWord b).toNat = b.toNat :=
  BitVec.toNat_setWidth_of_le (by decide)

/-- With FONT_BASE legal the glyph address of any byte lies below 65536 (R8, D20). -/
theorem State.glyphAddr_toNat (h : s.config.legal) : (s.glyphAddr x).toNat = s.config.fontBase + 5 * (s.reg x).toNat := by
  obtain ⟨hfont, -⟩ := h
  have hlt := (s.reg x).isLt
  exact (BitVec.toNat_ofNat _ 16).trans (Nat.mod_eq_of_lt (by omega))

/-- The rule of the three: one write of I, given as a number. -/
theorem State.setI_completes {w : Word} {n : Nat} (s : State) (hw : w.toNat = n) :
    Completes (.next (s.setI w)) fun t => t.iReg.toNat = n ∧ OnlyChanges s t (· ∈ [.iReg]) :=
  ⟨s.setI w, rfl, hw, onlyChanges_setI s w⟩

/-- Settles O38: each of the three is one write of I; the sum of Fx1E is of two words. -/
theorem addressRegisterWriters : Obligations.AddressRegisterWriters := by
  intro nnn x s
  have hsum : (s.iReg + byteWord (s.reg x)).toNat = (s.iReg.toNat + (s.reg x).toNat) % 65536 := by
    rw [BitVec.toNat_add, byteWord_toNat]
  exact ⟨s.setI_completes (addrWord_toNat nnn), s.setI_completes hsum,
    fun hlegal => s.setI_completes (State.glyphAddr_toNat hlegal)⟩

/-! ### The range check passed (R52, D9) -/

theorem State.withRange_of_inRange {len : Nat} (k : StepResult) (h : s.iReg.toNat + len ≤ 4096) :
    s.withRange s.base len k = k :=
  (s.withRange_eq s.base len k).trans (if_pos (.inr h))

theorem exec_bcd_of_inRange (h : s.iReg.toNat + 2 ≤ 4095) :
    exec (.bcd x) s = .next (s.storeBytes s.iReg.toNat (bcdDigits (s.reg x))) :=
  State.withRange_of_inRange _ (Nat.succ_le_succ h)

theorem exec_store_of_inRange (h : s.iReg.toNat + x.val ≤ 4095) :
    exec (.store x) s = .next ((s.storeBytes s.iReg.toNat (s.v.toList.take (blockCount x))).stepI x) :=
  State.withRange_of_inRange _ (Nat.succ_le_succ h)

theorem exec_load_of_inRange (h : s.iReg.toNat + x.val ≤ 4095) :
    exec (.load x) s = .next ((s.loadRegs s.iReg.toNat (blockCount x)).stepI x) :=
  State.withRange_of_inRange _ (Nat.succ_le_succ h)

/-! ### BCD (R193) -/

theorem decimalDigit_toNat {n : Nat} (h : n < 10) : (BitVec.ofNat 8 n).toNat = n :=
  (BitVec.toNat_ofNat n 8).trans (Nat.mod_eq_of_lt (by omega))

/-- Settles O39: each stored byte is read back, and each is a decimal digit, the hundreds because a byte is at most 255. -/
theorem bcdStoresDigits : Obligations.BcdStoresDigits := by
  intro x s hw hr
  have hexec := exec_bcd_of_inRange (x := x) hr
  have hread (k : Nat) (hk : k < 3) := congrArg BitVec.toNat
    (State.storeBytes_byte_inside (bs := bcdDigits (s.reg x)) hw (Nat.succ_le_succ hr) hk)
  have hlt := (s.reg x).isLt
  exact ⟨_, hexec, (hread 0 (by decide)).trans (decimalDigit_toNat (by omega)),
    (hread 1 (by decide)).trans (decimalDigit_toNat (by omega)),
    (hread 2 (by decide)).trans (decimalDigit_toNat (by omega)),
    (exec_frame hexec).mono fun _ ⟨k, hk, hp⟩ => ⟨k, Nat.le_of_lt_succ hk, hp⟩⟩

/-! ### Block transfer (R194, R195) -/

/-- Settles O40: the block store completes in range, and its frame names I for the mode increment alone. -/
theorem storeCopiesRegistersToMemory : Obligations.StoreCopiesRegistersToMemory := by
  intro x s hw hr
  have hexec := exec_store_of_inRange hr
  obtain ⟨hunchanged, hincrement⟩ := (s.storeBytes s.iReg.toNat (s.v.toList.take (blockCount x))).stepI_iReg x
  exact ⟨_, hexec, fun r => execStore_byte hw hexec, hunchanged, hincrement,
    (exec_frame hexec).mono fun _ => .imp_left And.right⟩

/-- Settles O41: the block load completes in range, and its frame names I for the mode increment alone. -/
theorem loadCopiesMemoryToRegisters : Obligations.LoadCopiesMemoryToRegisters := by
  intro x s hr
  have hexec := exec_load_of_inRange hr
  have hI := (s.loadRegs s.iReg.toNat (blockCount x)).stepI_iReg x
  rw [State.loadRegs_config, State.loadRegs_iReg] at hI
  obtain ⟨hunchanged, hincrement⟩ := hI
  refine ⟨_, hexec, fun r hle => ?_, hunchanged, hincrement, (exec_frame hexec).mono fun _ => .imp_left And.right⟩
  have hcount : r.val < blockCount x := Nat.lt_succ_of_le hle
  rw [State.stepI_reg, (s.loadRegs_spec s.iReg.toNat (blockCount x)).1 r, if_pos hcount]

end Sys2Proof.Machine

/-! ### Faults, timer count-down and the host's ports (60_exceptions.md) -/

namespace Sys2Proof.Machine

variable {s t : State}

/-! ### The count-down (R212) -/

/-- One step of the count-down of DT: of all instructions Fx15 alone would set it. -/
theorem step_dt_toNat_of_ne_ldDt (h : step s = .next t) (hd : ∀ x, decode s.fetchWord ≠ .ldDt x) :
    t.dt.toNat = s.dt.toNat - 1 := by
  obtain ⟨hdt, -⟩ := timersTickEveryStep s t h
  split at hdt
  · next x hx => exact absurd hx (hd x)
  · exact hdt

/-- One step of the count-down of ST: of all instructions Fx18 alone would set it. -/
theorem step_st_toNat_of_ne_ldSt (h : step s = .next t) (hd : ∀ x, decode s.fetchWord ≠ .ldSt x) :
    t.st.toNat = s.st.toNat - 1 := by
  obtain ⟨-, hst⟩ := timersTickEveryStep s t h
  split at hst
  · next x hx => exact absurd hx (hd x)
  · exact hst

/-- A quantity that every step from a state of class `P` counts down counts down over a run whose steps all start in `P`. -/
theorem runSteps_countDown {f : State → Nat} {P : State → Prop}
    (hstep : ∀ s t, step s = .next t → P s → f t = f s - 1) {count : Nat} (hrun : runSteps count s = .next t)
    (hP : ∀ j < count, ∀ u, runSteps j s = .next u → P u) : f t = f s - count := by
  induction count generalizing t with
  | zero =>
    obtain rfl := Host.Outcome.next.inj hrun
    rfl
  | succ n ih =>
    obtain ⟨u, hu, hlast⟩ := (runSteps_succ_last n s t).1 hrun
    have hbefore : f u = f s - n := ih hu fun j hj => hP j (Nat.lt_succ_of_lt hj)
    rw [hstep u t hlast (hP n n.lt_succ_self u hu), hbefore, Nat.sub_sub]

/-- Settles O37: each timer's tick is a count-down wherever its setter is not executed. -/
theorem timersCountDownToZero : Obligations.TimersCountDownToZero := by
  refine fun s t count hrun => ⟨fun hd => ?_, fun hd => ?_⟩
  · exact runSteps_countDown (f := (·.dt.toNat)) (fun _ _ => step_dt_toNat_of_ne_ldDt) hrun
      fun j hj u hu x => hd j hj u x hu
  · exact runSteps_countDown (f := (·.st.toNat)) (fun _ _ => step_st_toNat_of_ne_ldSt) hrun
      fun j hj u hu x => hd j hj u x hu

/-! ### The faults of the execute phase (R200, R201) -/

theorem EndsPer.eq_fault {f : Option Fault} {r : Fault} {o : StepResult} (h : EndsPer f o) (hf : f = some r) :
    o = .fault r := by
  cases h with
  | fault r' => rw [Option.some.inj hf]
  | next _ => cases hf

/-- Settles O43: every instruction ends as the table says. -/
theorem execFaultsExactlyPerTable : Obligations.ExecFaultsExactlyPerTable :=
  fun i s => ⟨fun _ => (exec_endsPer i s).eq_fault, (exec_endsPer i s).completes_iff.2⟩

/-- Settles O18: the pop is the arm of RET for a stack that is not empty, and the fault is the table's. -/
theorem retPopsIntoPc : Obligations.RetPopsIntoPc := by
  refine fun s => ⟨fun top rest hstack => ?_, fun hempty => (exec_endsPer .ret s).eq_fault (if_pos hempty)⟩
  have hexec := exec_ret_of_stack_cons hstack
  exact ⟨_, hexec, rfl, rfl, exec_frame hexec⟩

/-! ### The key write and the display read (R217, R218) -/

theorem setKey_of_lt {k : Nat} (hk : k < 16) (down : Bool) (s : State) :
    setKey k down s = .ok { s with keys := s.keys.setIfInBounds k down } := if_pos hk

/-- An accepted key write makes the key what it was asked to be. -/
theorem setKey_key_same {k : Fin 16} {down : Bool} (h : setKey k.val down s = .ok t) : t.key k = down := by
  obtain rfl := setKey_ok h
  exact Vector.getElem_setIfInBounds_self k.isLt

/-- An accepted key write changes the key it names and nothing else. -/
theorem onlyChanges_of_setKey {k : Fin 16} {down : Bool} (h : setKey k.val down s = .ok t) :
    OnlyChanges s t (· ∈ [.key k]) := by
  obtain rfl := setKey_ok h
  intro p hp
  cases p with
  | key k' =>
    have hne : k.val ≠ k'.val := fun he => hp (by simp [Fin.ext he])
    exact Vector.getElem_setIfInBounds_ne k'.isLt hne
  | _ => rfl

/-- Settles O47: the key write is one write of a key, the display read a lookup, each behind the check of its domain. -/
theorem keyAndDisplayPorts : Obligations.KeyAndDisplayPorts := by
  refine fun s => ⟨fun k b => ?_, fun k b hk => if_neg (by omega), fun px py hx hy => if_pos (by omega),
    fun px py hout => if_neg (by omega)⟩
  have hset := setKey_of_lt k.isLt b s
  exact ⟨_, hset, setKey_key_same hset, onlyChanges_of_setKey hset⟩

end Sys2Proof.Machine

/-! ### The invariant at reset (R230, R39) -/

namespace Sys2Proof.Machine

/-- A reset memory lists no cell, which is canonical at any FONT_BASE, and an empty stack stays within any STACK_LIMIT. -/
theorem State.resetWith_inv {c : Config} (hlegal : c.legal) : (State.resetWith c).Inv :=
  have hpc : (State.resetWith c).pc.toNat ≤ 0x10FE := show (0x200 : Word).toNat ≤ 0x10FE by decide
  have hstack : ∀ w ∈ (State.resetWith c).stack, w.toNat ≤ 4096 := List.forall_mem_nil _
  have hlimit : (State.resetWith c).stack.length ≤ c.stackLimit.getD (State.resetWith c).stack.length := Nat.zero_le _
  ⟨hlegal, State.reset_mem_wf c, hpc, hstack, hlimit⟩

/-- Settles O48: the default font ends below 0x200 and no stack limit is set, and reset keeps the configuration it is given. -/
theorem resetMeetsInvariant : Obligations.ResetMeetsInvariant :=
  ⟨by decide, fun _ => State.resetWith_inv⟩

end Sys2Proof.Machine
